-- ==== Sys2Proof/Word.lean ====
section
/-! DEFINITION. The value types of the block (spec/00_scope.md R9: every value is unsigned). -/

namespace Sys2Proof

/-- A byte: an unsigned 8-bit value (R9). -/
abbrev Byte := BitVec 8

/-- A 16-bit unsigned value: `RES`, `RLEN`, `DOUT`, an operand field (R15, R55). -/
abbrev Half := BitVec 16

/-- One operation word `OPW` (R55). -/
abbrev OpWord := BitVec 24

end Sys2Proof
end

