-- ==== Sys2Proof/Config.lean ====
section
/-! DEFINITION. What is fixed for the block: the document's constants (R4), the open parameters with the spec's
defaults (R5, R6), and the free values that stand for everything the spec calls unspecified (R11, R27, R36, R39). -/

namespace Sys2Proof
namespace Config

/-- `SOF`, the start delimiter (R4). -/
def sof : Byte := 0x7B
/-- `EOF`, the end delimiter (R4). -/
def eof : Byte := 0x7D
/-- `FRAME_LEN` (R4). -/
def frameLen : Nat := 8
/-- `KEY`, the build-time cipher key (R4, R5). -/
def key : Byte := 0xAA
/-- Each of the two bytes of `SENT` (R4, R71). -/
def sentinelByte : Byte := 0xFF
/-- `OPC_ADJUST` (R4, R69). -/
def opcAdjust : Byte := 0x01
/-- `OPC_STREAM` (R4, R69). -/
def opcStream : Byte := 0x02
/-- `OPC_XSTREAM` (R4, R69). -/
def opcXstream : Byte := 0x03
/-- `OPC_FILE` (R4, R69). -/
def opcFile : Byte := 0x04
/-- The three bytes of the ERR substitute (R77). PRESUMED by the spec itself (general knowledge), log 9. -/
def err0 : Byte := 0x45
/-- See `err0`. -/
def err1 : Byte := 0x52
/-- See `err0`. -/
def err2 : Byte := 0x52

/-- The parameters of R5 and R6 that rules of the block read. Every rule holds for every value of them
(R5, U5, U6), so the operations that read one take a `Params`. -/
structure Params where
  /-- `KEY` -/
  key : Byte
  /-- `BUF_CAP`, at most 65535 because `RLEN` has 16 bits (C10). -/
  bufCap : Half
  /-- `TEXT_VALID` -/
  textValid : Byte → Bool

/-- The machine's own parameters: the spec's value of `KEY` and the spec's defaults of the two open ones.
DESIGN CHOICE (the defaults stand for open parameters), log 8. -/
def params : Params where
  key := key
  bufCap := 65535
  textValid b := b.toNat ≤ 0x7F

/-- `DEADLINE` in seconds: the platform timer's, read by no rule of the block (R6, R161). -/
def deadlineSeconds : Nat := 20
/-- `IDLE_DELAY` in milliseconds: the host's, read by no rule of the block (R6, R163). -/
def idleDelayMillis : Nat := 100
/-- `READ_TIMEOUT`: open, with no default (R6, R163). -/
opaque readTimeoutMillis : Nat

/-! Free values. The argument counts the draws (`State.draws`), so that two draws are not known to agree. Log 3. -/

/-- `DOUT` where it is unspecified (R36, R59, U3). -/
opaque freeDout : Nat → Half
/-- `RES` where it is unspecified (R27, R39, U2). -/
opaque freeRes : Nat → Half
/-- `ALARM0` where it is unspecified (R27, R39, U2). -/
opaque freeAlarm0 : Nat → Byte
/-- `ALARM1` where it is unspecified (R27, R39, U2). -/
opaque freeAlarm1 : Nat → Byte
/-- `ALARM2` where it is unspecified (R27, R39, U2). -/
opaque freeAlarm2 : Nat → Byte
/-- `AERR` where it is unspecified (R27, R39, U2). -/
opaque freeAerr : Nat → Bool
/-- `CALC` where it is unspecified (R27, R39, U2). -/
opaque freeCalc : Nat → Byte
/-- `RECV` where it is unspecified (R27, R39, U2). -/
opaque freeRecv : Nat → Byte
/-- `CKV` where it is unspecified (R27, R39, U2). -/
opaque freeCkv : Nat → Bool
/-- The bytes of `FB` after a reset: draw, then index (R39, U4). -/
opaque freeFb : Nat → Nat → Byte
/-- A byte of `RBUF` that nothing has written, by address (R39, U4). -/
opaque freeRbuf : Nat → Byte

end Config
end Sys2Proof
end

