-- ==== Sys2Proof/Syntax.lean ====
section
/-! DEFINITION. The instructions: the eighteen operations of R62 and the seven wire messages of the opcode table
(R65 to R71), and the two ways the host can present one. -/

namespace Sys2Proof

/-- The sixteen registers of the read port, by name (R33). -/
inductive StatusReg where
  | acc | key | flen | dstat | res | alarm0 | alarm1 | alarm2
  | calcReg | recvReg | ckv | aerr | estat | rstat | rlen | flt
  deriving DecidableEq, Repr

/-- Eight bytes in wire order: the frame buffer `FB[0..7]` (R17) and the value `W` of R103 and R105. -/
structure FrameImage where
  b0 : Byte
  b1 : Byte
  b2 : Byte
  b3 : Byte
  b4 : Byte
  b5 : Byte
  b6 : Byte
  b7 : Byte
  deriving DecidableEq, Repr

/-- One constructor per row of spec/opcode_table.json. -/
inductive Instr where
  /-- `NOP` (R143) -/
  | nop
  /-- `RD r` (R144) -/
  | rd (r : StatusReg)
  /-- `RST` (R145) -/
  | rst
  /-- `BCC.CLR` (R80) -/
  | bccClr
  /-- `BCC.ABS b` (R81) -/
  | bccAbs (b : Byte)
  /-- `XC.BYTE b` (R86) -/
  | xcByte (b : Byte)
  /-- `FE.OPEN b` (R91) -/
  | feOpen (b : Byte)
  /-- `FE.ARG8 b` (R92) -/
  | feArg8 (b : Byte)
  /-- `FE.ARG16 v` (R93) -/
  | feArg16 (v : Half)
  /-- `FE.CLOSE` (R94) -/
  | feClose
  /-- `FD.CLR` (R100) -/
  | fdClr
  /-- `FD.PUSH b` (R101) -/
  | fdPush (b : Byte)
  /-- `FD.DEC` (R103) -/
  | fdDec
  /-- `FD.DECX` (R105) -/
  | fdDecx
  /-- `RX.START` (R131) -/
  | rxStart
  /-- `RX.PUT b, last` (R132) -/
  | rxPut (b : Byte) (last : Bool)
  /-- `RX.TMO` (R138) -/
  | rxTmo
  /-- `RX.RDB a` (R139) -/
  | rxRdb (a : Half)
  /-- `WIRE.Frame` (R66): a received plain Frame, handed to the decoder (R118); log 7. -/
  | wireFrame (raw : FrameImage)
  /-- `WIRE.EncryptedFrame` (R67): a received EncryptedFrame, handed to the encrypted decode (R119); log 7. -/
  | wireEncryptedFrame (raw : FrameImage)
  /-- `CMD.ADJUST` (R70, R97): the parameter-adjust Command, built by the encoder (R117); log 7. -/
  | cmdAdjust (lower upper frequency : Half)
  /-- `CMD.STREAM` (R70, R98): the enter-streaming Command; log 7. -/
  | cmdStream
  /-- `CMD.XSTREAM` (R70, R98): the enter-encrypted-streaming Command; log 7. -/
  | cmdXstream
  /-- `CMD.FILE` (R70, R98): the enter-file-transfer Command; log 7. -/
  | cmdFile
  /-- `WIRE.Sentinel` (R71): the two bytes that end a file, received in one append (R120, R132); log 7. -/
  | wireSentinel
  deriving DecidableEq, Repr

/-- What the environment hands over for one step: an operation word at the operation port (R55), or the bytes of
one complete wire message (R65, log 7). -/
inductive Presentation where
  | word (w : OpWord)
  | message (bytes : List Byte)
  deriving DecidableEq, Repr

end Sys2Proof
end

