-- ==== Sys2Proof/WellFormed.lean ====
section
/-! DEFINITION. Which terms of `Instr` an encoding stands for. Operand widths and register numbers are checked by
the types; what is left are the fixed delimiter bytes of the two eight-byte wire formats. -/

namespace Sys2Proof

/-- The delimiter part of "well-formed" (R99); the length is in the type. -/
def FrameImage.delimited (raw : FrameImage) : Bool :=
  raw.b0 == Config.sof && raw.b7 == Config.eof

/-- The delimiters of an EncryptedFrame "as sent by a correct sender" (R67). -/
def FrameImage.delimitedEnciphered (raw : FrameImage) : Bool :=
  raw.b0 == Config.sof ^^^ Config.key && raw.b7 == Config.eof ^^^ Config.key

/-- Every operation is well-formed; a wire frame carries the delimiters of its row in the opcode table. -/
def Instr.wellFormed : Instr → Bool
  | .nop => true
  | .rd _ => true
  | .rst => true
  | .bccClr => true
  | .bccAbs _ => true
  | .xcByte _ => true
  | .feOpen _ => true
  | .feArg8 _ => true
  | .feArg16 _ => true
  | .feClose => true
  | .fdClr => true
  | .fdPush _ => true
  | .fdDec => true
  | .fdDecx => true
  | .rxStart => true
  | .rxPut _ _ => true
  | .rxTmo => true
  | .rxRdb _ => true
  | .wireFrame raw => raw.delimited
  | .wireEncryptedFrame raw => raw.delimitedEnciphered
  | .cmdAdjust _ _ _ => true
  | .cmdStream => true
  | .cmdXstream => true
  | .cmdFile => true
  | .wireSentinel => true

end Sys2Proof
end

