-- ==== Sys2Proof/Decode.lean ====
section
/-! DEFINITION. Decoding of operation words (R55 to R63) and of wire messages (R65 to R71), the encoder, and the
opcode map as a table (R62). -/

namespace Sys2Proof

/-- Why a presentation is no instruction. -/
inductive Reject where
  /-- the `op` value is none of the eighteen (R63) -/
  | illegalOp
  /-- the `op` is legal and a reserved operand bit is set (R58) -/
  | reservedOperandBits
  /-- the bytes are none of the message formats of R65 (log 10) -/
  | notAMessage
  deriving DecidableEq, Repr

/-- `op`, that is `OPW[23:16]` (R55). -/
def opOf (w : OpWord) : Byte := w.extractLsb' 16 8

/-- `opd`, that is `OPW[15:0]` (R55). -/
def opdOf (w : OpWord) : Half := w.extractLsb' 0 16

/-- The register numbered `n` at the read port (R33). -/
def StatusReg.ofNumber (n : BitVec 4) : StatusReg :=
  match n.toNat with
  | 0 => .acc
  | 1 => .key
  | 2 => .flen
  | 3 => .dstat
  | 4 => .res
  | 5 => .alarm0
  | 6 => .alarm1
  | 7 => .alarm2
  | 8 => .calcReg
  | 9 => .recvReg
  | 10 => .ckv
  | 11 => .aerr
  | 12 => .estat
  | 13 => .rstat
  | 14 => .rlen
  | _ => .flt

/-- The number of a register at the read port (R33). -/
def StatusReg.number : StatusReg → BitVec 4
  | .acc => 0
  | .key => 1
  | .flen => 2
  | .dstat => 3
  | .res => 4
  | .alarm0 => 5
  | .alarm1 => 6
  | .alarm2 => 7
  | .calcReg => 8
  | .recvReg => 9
  | .ckv => 10
  | .aerr => 11
  | .estat => 12
  | .rstat => 13
  | .rlen => 14
  | .flt => 15

/-! ### The six operand forms (R57), each with its reserved bits checked (R58) -/

/-- Form `N`: no operand. -/
def formN (i : Instr) (opd : Half) : Except Reject Instr :=
  if opd = 0 then .ok i else .error .reservedOperandBits

/-- Form `B`: `b = opd[7:0]`. -/
def formB (mk : Byte → Instr) (opd : Half) : Except Reject Instr :=
  if opd.extractLsb' 8 8 = 0 then .ok (mk (opd.extractLsb' 0 8)) else .error .reservedOperandBits

/-- Form `BL`: `b = opd[7:0]`, `last = opd[8]`. -/
def formBL (mk : Byte → Bool → Instr) (opd : Half) : Except Reject Instr :=
  if opd.extractLsb' 9 7 = 0 then .ok (mk (opd.extractLsb' 0 8) (opd.getLsbD 8))
  else .error .reservedOperandBits

/-- Forms `W` and `A`: all sixteen bits. -/
def formW (mk : Half → Instr) (opd : Half) : Except Reject Instr :=
  .ok (mk opd)

/-- Form `R`: `r = opd[3:0]`. -/
def formR (mk : StatusReg → Instr) (opd : Half) : Except Reject Instr :=
  if opd.extractLsb' 4 12 = 0 then .ok (mk (.ofNumber (opd.extractLsb' 0 4)))
  else .error .reservedOperandBits

/-- The operation selected by `op` alone, then its operand form (R56, R62, R63). -/
def decodeOp (op : Byte) (opd : Half) : Except Reject Instr :=
  match op.toNat with
  | 0x00 => formN .nop opd
  | 0x01 => formR .rd opd
  | 0x0F => formN .rst opd
  | 0x10 => formN .bccClr opd
  | 0x11 => formB .bccAbs opd
  | 0x20 => formB .xcByte opd
  | 0x30 => formB .feOpen opd
  | 0x31 => formB .feArg8 opd
  | 0x32 => formW .feArg16 opd
  | 0x33 => formN .feClose opd
  | 0x40 => formN .fdClr opd
  | 0x41 => formB .fdPush opd
  | 0x42 => formN .fdDec opd
  | 0x43 => formN .fdDecx opd
  | 0x50 => formN .rxStart opd
  | 0x51 => formBL .rxPut opd
  | 0x52 => formN .rxTmo opd
  | 0x53 => formW .rxRdb opd
  | _ => .error .illegalOp

/-- The operation word decoder (R55, R56). -/
def decodeWord (w : OpWord) : Except Reject Instr := decodeOp (opOf w) (opdOf w)

/-- The eight-byte formats: Frame (R66) and EncryptedFrame (R67), told apart by the delimiters of their rows. -/
def decodeFrameMessage (raw : FrameImage) : Except Reject Instr :=
  if raw.delimited then .ok (.wireFrame raw)
  else if raw.delimitedEnciphered then .ok (.wireEncryptedFrame raw)
  else .error .notAMessage

/-- The three-byte Commands (R70). -/
def decodeModeCommand (opcode : Byte) : Except Reject Instr :=
  if opcode = Config.opcStream then .ok .cmdStream
  else if opcode = Config.opcXstream then .ok .cmdXstream
  else if opcode = Config.opcFile then .ok .cmdFile
  else .error .notAMessage

/-- The wire message decoder, by length and fixed bytes; 16-bit fields big-endian (R44, R66 to R71). -/
def decodeMessage : List Byte → Except Reject Instr
  | [c0, c1] =>
    if c0 = Config.sentinelByte ∧ c1 = Config.sentinelByte then .ok .wireSentinel else .error .notAMessage
  | [c0, c1, c2] =>
    if c0 = Config.sof ∧ c2 = Config.eof then decodeModeCommand c1 else .error .notAMessage
  | [c0, c1, c2, c3, c4, c5, c6, c7] => decodeFrameMessage ⟨c0, c1, c2, c3, c4, c5, c6, c7⟩
  | [c0, c1, c2, c3, c4, c5, c6, c7, c8] =>
    if c0 = Config.sof ∧ c1 = Config.opcAdjust ∧ c8 = Config.eof then
      .ok (.cmdAdjust (c2 ++ c3) (c4 ++ c5) (c6 ++ c7))
    else .error .notAMessage
  | _ => .error .notAMessage

/-- The decoder: total, rejecting by name. -/
def decode : Presentation → Except Reject Instr
  | .word w => decodeWord w
  | .message bytes => decodeMessage bytes

/-! ### The encoder -/

/-- An operation word from its two halves (R55). -/
def opWord (op : Byte) (opd : Half) : OpWord := op ++ opd

/-- The operand of form `B` (R57). -/
def opdB (b : Byte) : Half := (0 : Byte) ++ b

/-- The operand of form `BL` (R57). -/
def opdBL (b : Byte) (last : Bool) : Half := (0 : BitVec 7) ++ (BitVec.ofBool last ++ b)

/-- The operand of form `R` (R57). -/
def opdR (r : StatusReg) : Half := (0 : BitVec 12) ++ r.number

/-- The eight bytes of an image, in wire order. -/
def FrameImage.bytes (w : FrameImage) : List Byte :=
  [w.b0, w.b1, w.b2, w.b3, w.b4, w.b5, w.b6, w.b7]

/-- The first byte on the wire of a 16-bit field (R73). -/
def hi8 (v : Half) : Byte := v.extractLsb' 8 8

/-- The second byte on the wire of a 16-bit field (R73). -/
def lo8 (v : Half) : Byte := v.extractLsb' 0 8

/-- The presentation that stands for an instruction (R57, R62, R66 to R71). -/
def encode : Instr → Presentation
  | .nop => .word (opWord 0x00 0)
  | .rd r => .word (opWord 0x01 (opdR r))
  | .rst => .word (opWord 0x0F 0)
  | .bccClr => .word (opWord 0x10 0)
  | .bccAbs b => .word (opWord 0x11 (opdB b))
  | .xcByte b => .word (opWord 0x20 (opdB b))
  | .feOpen b => .word (opWord 0x30 (opdB b))
  | .feArg8 b => .word (opWord 0x31 (opdB b))
  | .feArg16 v => .word (opWord 0x32 v)
  | .feClose => .word (opWord 0x33 0)
  | .fdClr => .word (opWord 0x40 0)
  | .fdPush b => .word (opWord 0x41 (opdB b))
  | .fdDec => .word (opWord 0x42 0)
  | .fdDecx => .word (opWord 0x43 0)
  | .rxStart => .word (opWord 0x50 0)
  | .rxPut b last => .word (opWord 0x51 (opdBL b last))
  | .rxTmo => .word (opWord 0x52 0)
  | .rxRdb a => .word (opWord 0x53 a)
  | .wireFrame raw => .message raw.bytes
  | .wireEncryptedFrame raw => .message raw.bytes
  | .cmdAdjust l u f =>
    .message [Config.sof, Config.opcAdjust, hi8 l, lo8 l, hi8 u, lo8 u, hi8 f, lo8 f, Config.eof]
  | .cmdStream => .message [Config.sof, Config.opcStream, Config.eof]
  | .cmdXstream => .message [Config.sof, Config.opcXstream, Config.eof]
  | .cmdFile => .message [Config.sof, Config.opcFile, Config.eof]
  | .wireSentinel => .message [Config.sentinelByte, Config.sentinelByte]

/-! ### The opcode map as a table (R62) -/

/-- One row of R62: a word `w` is this operation when `w and mask = pattern`. -/
structure OpRow where
  mnemonic : String
  pattern : OpWord
  mask : OpWord
  deriving DecidableEq, Repr

/-- Does the word encode the row's operation (R62)? -/
def OpRow.matches (row : OpRow) (w : OpWord) : Bool := w &&& row.mask == row.pattern

/-- The eighteen rows of R62. -/
def opcodeTable : List OpRow :=
  [⟨"NOP", 0x000000, 0xFFFFFF⟩, ⟨"RD", 0x010000, 0xFFFFF0⟩, ⟨"RST", 0x0F0000, 0xFFFFFF⟩,
   ⟨"BCC.CLR", 0x100000, 0xFFFFFF⟩, ⟨"BCC.ABS", 0x110000, 0xFFFF00⟩, ⟨"XC.BYTE", 0x200000, 0xFFFF00⟩,
   ⟨"FE.OPEN", 0x300000, 0xFFFF00⟩, ⟨"FE.ARG8", 0x310000, 0xFFFF00⟩, ⟨"FE.ARG16", 0x320000, 0xFF0000⟩,
   ⟨"FE.CLOSE", 0x330000, 0xFFFFFF⟩] ++
  [⟨"FD.CLR", 0x400000, 0xFFFFFF⟩, ⟨"FD.PUSH", 0x410000, 0xFFFF00⟩, ⟨"FD.DEC", 0x420000, 0xFFFFFF⟩,
   ⟨"FD.DECX", 0x430000, 0xFFFFFF⟩, ⟨"RX.START", 0x500000, 0xFFFFFF⟩, ⟨"RX.PUT", 0x510000, 0xFFFE00⟩,
   ⟨"RX.TMO", 0x520000, 0xFFFFFF⟩, ⟨"RX.RDB", 0x530000, 0xFF0000⟩]

/-! ### Words numbered as spec/opcode_table.json numbers them -/

/-- The `n` bytes of a number, the most significant first: the order in which the table writes a wire row's bytes
(log 10). -/
def wireBytes : Nat → Nat → List Byte
  | 0, _ => []
  | n + 1, w => wireBytes n (w / 256) ++ [BitVec.ofNat 8 w]

/-- How the `nbits` bits `w` of a table row are presented: 24 bits that are an operation word or no Command go to
the operation port, everything else is a message (log 10). -/
def tablePresentation (nbits w : Nat) : Presentation :=
  if nbits = 24 then
    match decodeWord (BitVec.ofNat 24 w), decodeMessage (wireBytes 3 w) with
    | .error _, .ok _ => .message (wireBytes 3 w)
    | _, _ => .word (BitVec.ofNat 24 w)
  else .message (wireBytes (nbits / 8) w)

/-- The instruction the decoder reads from a table row's bits. -/
def decodeTableWord (nbits w : Nat) : Option Instr :=
  match decode (tablePresentation nbits w) with
  | .ok i => some i
  | .error _ => none

end Sys2Proof
end

