-- ==== Sys2Proof/Machine/State.lean ====
section
/-! DEFINITION. The state of the block (R15) as plain data, the outputs of its last step (R13, R36), the
environment's input, and reset (R39, R166). -/

namespace Sys2Proof
namespace Machine

/-- `DSTAT`, the outcome of the last decode (R26). -/
inductive DStat where
  | none | ok | lengthErr | framingErr
  deriving DecidableEq, Repr

/-- `ESTAT`, the state of the command encoder (R28). -/
inductive EStat where
  | idle | opened
  deriving DecidableEq, Repr

/-- `RSTAT`, the state of the file reception (R29). -/
inductive RStat where
  | idle | recv | done | timeout
  deriving DecidableEq, Repr

/-- `RBUF`: the bytes written since reset, addresses strictly rising. An address that is not listed holds no
value (R39, U4, log 5). -/
abbrev Memory := List Host.Cell

structure State where
  /-- `ACC` (R16) -/
  acc : Byte
  /-- `FB[0..7]` (R17) -/
  fb : FrameImage
  /-- `FLEN` (R25) -/
  flen : BitVec 4
  /-- `DSTAT` (R26) -/
  dstat : DStat
  /-- `RES` (R18) -/
  res : Half
  /-- `ALARM0` (R19) -/
  alarm0 : Byte
  /-- `ALARM1` (R19) -/
  alarm1 : Byte
  /-- `ALARM2` (R19) -/
  alarm2 : Byte
  /-- `AERR` (R23) -/
  aerr : Bool
  /-- `CALC` (R20) -/
  calcReg : Byte
  /-- `RECV` (R20) -/
  recvReg : Byte
  /-- `CKV` (R22) -/
  ckv : Bool
  /-- `ESTAT` (R28) -/
  estat : EStat
  /-- `RSTAT` (R29) -/
  rstat : RStat
  /-- `RLEN` (R30) -/
  rlen : Half
  /-- `RBUF` (R41, R43) -/
  rbuf : Memory
  /-- `FLT`, bit 0 ILL, bit 1 SEQ, bit 2 OVF, bit 3 ADR (R32) -/
  flt : BitVec 4
  /-- The bytes the last step emitted on `TX`, in order (R13, R60): an output, the model's own field (log 2). -/
  tx : List Byte
  /-- The value of `DOUT` after the last step (R13, R59): an output, the model's own field (log 2). -/
  dout : Half
  /-- What the environment has still to present, the next item first (R7, R31): the model's own field (log 1). -/
  presented : List Presentation
  /-- How many free values were drawn: the model's own field (log 3). -/
  draws : Nat
  deriving DecidableEq, Repr

/-- Why the machine would stop with a fault: never. The block's faults are sticky bits of `FLT`, set by a step that
has a next state (R152), and it has no trap (R154); log 12. No constructor, hence safe. -/
inductive Fault where
  deriving DecidableEq, Repr

/-- Why a presentation has no meaning. -/
inductive Refusal where
  /-- An instruction whose meaning is not written. No arm of `exec` answers it. Safe. -/
  | notModelled (mnemonic : String)
  /-- Raised by `step` when the bytes presented as a wire message have none of the formats of R65, so that the
  spec gives no procedure for them (log 10). No operation word leads here. Safe. -/
  | notAMessage
  deriving DecidableEq, Repr

/-- The reset values of R39, with everything R39 leaves unspecified drawn freely (draw number `draw`); the
environment's input is no part of the block and stays. -/
def State.atReset (draw : Nat) (presented : List Presentation) : State where
  acc := 0
  fb := ⟨Config.freeFb draw 0, Config.freeFb draw 1, Config.freeFb draw 2, Config.freeFb draw 3,
    Config.freeFb draw 4, Config.freeFb draw 5, Config.freeFb draw 6, Config.freeFb draw 7⟩
  flen := 0
  dstat := .none
  res := Config.freeRes draw
  alarm0 := Config.freeAlarm0 draw
  alarm1 := Config.freeAlarm1 draw
  alarm2 := Config.freeAlarm2 draw
  aerr := Config.freeAerr draw
  calcReg := Config.freeCalc draw
  recvReg := Config.freeRecv draw
  ckv := Config.freeCkv draw
  estat := .idle
  rstat := .idle
  rlen := 0
  rbuf := []
  flt := 0
  tx := []
  dout := Config.freeDout draw
  presented := presented
  draws := draw + 1

/-- The machine right after a hardware reset (R39, R166), with nothing presented yet (R167). -/
def State.reset : State := State.atReset 0 []

end Machine
end Sys2Proof
end

