-- ==== Sys2Proof/Machine/Operands.lean ====
section
/-! DEFINITION. The assembly of values from bytes (R11, R44, R73), the frame image, the codes of the status
registers (R76) and the read port (R33). -/

namespace Sys2Proof
namespace Machine

/-- `be16(h, l)`, `h` the first on the wire (R11, R44). -/
def be16 (h l : Byte) : Half := h ++ l

/-- `zext_16` of a byte (R11, R59). -/
def zext16 (b : Byte) : Half := b.setWidth 16

/-- The image with `f` applied to each byte. -/
def frameMap (f : Byte → Byte) (w : FrameImage) : FrameImage :=
  ⟨f w.b0, f w.b1, f w.b2, f w.b3, f w.b4, f w.b5, f w.b6, f w.b7⟩

/-- `FB[i] <- b`; an index above 7 names no byte (R11, R42). -/
def frameSet (w : FrameImage) (i : Nat) (b : Byte) : FrameImage :=
  match i with
  | 0 => { w with b0 := b }
  | 1 => { w with b1 := b }
  | 2 => { w with b2 := b }
  | 3 => { w with b3 := b }
  | 4 => { w with b4 := b }
  | 5 => { w with b5 := b }
  | 6 => { w with b6 := b }
  | 7 => { w with b7 := b }
  | _ => w

/-- The delimiters restored after deciphering (R104, R105). -/
def frameRepair (w : FrameImage) : FrameImage :=
  { w with b0 := Config.sof, b7 := Config.eof }

/-- The code of `DSTAT` (R26, R76). -/
def dstatCode : DStat → BitVec 2
  | .none => 0
  | .ok => 1
  | .lengthErr => 2
  | .framingErr => 3

/-- The code of `ESTAT` (R28, R76). -/
def estatCode : EStat → BitVec 1
  | .idle => 0
  | .opened => 1

/-- The code of `RSTAT` (R29, R76). -/
def rstatCode : RStat → BitVec 2
  | .idle => 0
  | .recv => 1
  | .done => 2
  | .timeout => 3

/-- `x[r]`: the register `r` through the read port, zero-extended to 16 bits (R11, R33). -/
def readStatus (p : Config.Params) (s : State) : StatusReg → Half
  | .acc => s.acc.setWidth 16
  | .key => p.key.setWidth 16
  | .flen => s.flen.setWidth 16
  | .dstat => (dstatCode s.dstat).setWidth 16
  | .res => s.res
  | .alarm0 => s.alarm0.setWidth 16
  | .alarm1 => s.alarm1.setWidth 16
  | .alarm2 => s.alarm2.setWidth 16
  | .calcReg => s.calcReg.setWidth 16
  | .recvReg => s.recvReg.setWidth 16
  | .ckv => (BitVec.ofBool s.ckv).setWidth 16
  | .aerr => (BitVec.ofBool s.aerr).setWidth 16
  | .estat => (estatCode s.estat).setWidth 16
  | .rstat => (rstatCode s.rstat).setWidth 16
  | .rlen => s.rlen
  | .flt => s.flt.setWidth 16

end Machine
end Sys2Proof
end

