-- ==== Sys2Proof/Machine/Functions.lean ====
section
/-! DEFINITION. The document's functions, as it gives them (R12, R79, R85, R90, R102, R104, R130): pure functions of
byte sequences. The operations use `checksum` and the cipher byte; the others are what the operation sequences of
Machine/Procedures.lean are claimed to compute. -/

namespace Sys2Proof
namespace Machine

/-- `checksum(s) = xorfold(s)`: the XOR of all bytes, `0x00` of none (R12, R79). -/
def checksum (s : List Byte) : Byte := s.foldl (· ^^^ ·) 0

/-- One byte through the cipher (R85). -/
def cipherByte (key b : Byte) : Byte := b ^^^ key

/-- `cipher(s)` (R85). -/
def cipher (key : Byte) (s : List Byte) : List Byte := s.map (cipherByte key)

/-- `encode_command(opcode, args)` (R90). -/
def encodeCommand (opcode : Byte) (args : List Byte) : List Byte :=
  [Config.sof] ++ [opcode] ++ args ++ [Config.eof]

/-- The six argument bytes of the mode-1 Command (R97). -/
def adjustArgs (lower upper frequency : Half) : List Byte :=
  [hi8 lower, lo8 lower, hi8 upper, lo8 upper, hi8 frequency, lo8 frequency]

/-- The document's decode errors (R26, R148). -/
inductive DecodeError where
  | lengthError
  | framingError
  deriving DecidableEq, Repr

/-- The document's `ParsedFrame` (R14, R102). -/
structure ParsedFrame where
  resistance : Half
  alarmStatus : List Byte
  calculatedChecksum : Byte
  receivedChecksum : Byte
  checksumValid : Bool
  deriving DecidableEq, Repr

/-- The text of the alarm bytes: as they stand when every one is decodable, else "ERR" (R102 step 4, R106). -/
def alarmText (textValid : Byte → Bool) (raw : List Byte) : List Byte :=
  if raw.all textValid then raw else [Config.err0, Config.err1, Config.err2]

/-- `decode_frame(raw)`: the six steps of R102. -/
def decodeFrame (p : Config.Params) (raw : List Byte) : Except DecodeError ParsedFrame :=
  match raw with
  | [c0, c1, c2, c3, c4, c5, c6, c7] =>
    if c0 ≠ Config.sof ∨ c7 ≠ Config.eof then .error .framingError
    else .ok {
      resistance := be16 c1 c2
      alarmStatus := alarmText p.textValid [c3, c4, c5]
      calculatedChecksum := checksum [c0, c1, c2, c3, c4, c5]
      receivedChecksum := c6
      checksumValid := checksum [c0, c1, c2, c3, c4, c5] == c6 }
  | _ => .error .lengthError

/-- `decode_encrypted_frame(raw)` (R104). -/
def decodeEncryptedFrame (p : Config.Params) (raw : List Byte) : Except DecodeError ParsedFrame :=
  if raw.length < Config.frameLen then .error .lengthError
  else decodeFrame p (((cipher p.key raw).set 0 Config.sof).set 7 Config.eof)

/-- The document's `FileTransferResult` (R14, R130). -/
structure FileTransferResult where
  data : List Byte
  timedOut : Bool
  deriving DecidableEq, Repr

/-- "the buffer's last two bytes equal the sentinel"; never of fewer than two bytes (R130 step 2, R134). -/
def endsInSentinel (buffer : List Byte) : Bool :=
  buffer.drop (buffer.length - 2) == [Config.sentinelByte, Config.sentinelByte]

/-- `receive_file` from a buffer on: the polls that come before the deadline, in order; an empty poll is a no-op
(R130, R136). -/
def receiveFileFrom (buffer : List Byte) : List (List Byte) → FileTransferResult
  | [] => ⟨buffer, true⟩
  | [] :: polls => receiveFileFrom buffer polls
  | (b :: bs) :: polls =>
    if endsInSentinel (buffer ++ b :: bs) then
      ⟨(buffer ++ b :: bs).take ((buffer ++ b :: bs).length - 2), false⟩
    else receiveFileFrom (buffer ++ b :: bs) polls

/-- `receive_file`, given what each poll before the deadline returned (R130). -/
def receiveFile (polls : List (List Byte)) : FileTransferResult := receiveFileFrom [] polls

end Machine
end Sys2Proof
end

