-- ==== Sys2Proof/Machine/Flags.lean ====
section
/-! DEFINITION. Every flag computation of the block: the fault bits of FLT (R32, R153), CKV (R22), AERR with the
alarm field (R23, R106). -/

namespace Sys2Proof
namespace Machine

/-- The four fault causes (R32, R153). -/
inductive FaultBit where
  | ill | seq | ovf | adr
  deriving DecidableEq, Repr

/-- The bit of `FLT` that a cause sets (R32). -/
def faultMask : FaultBit → BitVec 4
  | .ill => 0b0001
  | .seq => 0b0010
  | .ovf => 0b0100
  | .adr => 0b1000

/-- `FLT` with the bit of a cause set; the other bits stay (R152, R155). -/
def setFaultBit (flt : BitVec 4) (f : FaultBit) : BitVec 4 := flt ||| faultMask f

/-- `CKV` (R22, R107). -/
def checksumMatches (calcReg recvReg : Byte) : Bool := calcReg == recvReg

/-- The registers `ALARM0..2` and `AERR` as a decode writes them. -/
structure AlarmField where
  alarm0 : Byte
  alarm1 : Byte
  alarm2 : Byte
  aerr : Bool
  deriving DecidableEq, Repr

/-- The alarm field (R106). -/
def alarmField (textValid : Byte → Bool) (a0 a1 a2 : Byte) : AlarmField :=
  if textValid a0 && textValid a1 && textValid a2 then ⟨a0, a1, a2, false⟩
  else ⟨Config.err0, Config.err1, Config.err2, true⟩

end Machine
end Sys2Proof
end

