-- ==== Sys2Proof/Machine/Ops.lean ====
section
/-! DEFINITION. The operations that the meanings share: RBUF, the outputs of a step, the raising of a fault (the
block's only form of exception, R152, R154), unspecified results, and running several operations in a row. -/

namespace Sys2Proof
namespace Machine

/-! ### The receive buffer -/

/-- What the buffer holds at an address; an unlisted address holds nothing (log 5). -/
def Memory.lookup (m : Memory) (a : Nat) : Option Byte :=
  match m with
  | [] => none
  | (a', b) :: rest => if a' = a then some b else Memory.lookup rest a

/-- `MemWrite(RBUF, a, 1, b)` (R11), keeping the addresses strictly rising. -/
def Memory.write (m : Memory) (a : Nat) (b : Byte) : Memory :=
  match m with
  | [] => [(a, b)]
  | (a', b') :: rest =>
    if a < a' then (a, b) :: (a', b') :: rest
    else if a' = a then (a, b) :: rest
    else (a', b') :: Memory.write rest a b

/-- The canonical form: addresses strictly rising. -/
def Memory.wf : Memory → Bool
  | [] => true
  | [_] => true
  | (a, _) :: (a', b') :: rest => decide (a < a') && Memory.wf ((a', b') :: rest)

/-- `MemRead(RBUF, a, 1)` (R11): a byte that nothing has written is unspecified (R39, U4). -/
def State.rbufByte (s : State) (a : Nat) : Byte :=
  (Memory.lookup s.rbuf a).getD (Config.freeRbuf a)

/-! ### The outputs of a step -/

/-- The step emits the bytes `bytes`, and `DOUT` is unspecified (R36, R59, R60). -/
def State.emitting (s : State) (bytes : List Byte) : State :=
  { s with tx := bytes, dout := Config.freeDout s.draws, draws := s.draws + 1 }

/-- The step emits nothing, and `DOUT` is unspecified (R36, R59). -/
def State.silent (s : State) : State := s.emitting []

/-- `DOUT <- v`; the step emits nothing (R59). -/
def State.answering (s : State) (v : Half) : State :=
  { s with tx := [], dout := v }

/-- `raise Fault(f)`: the bit is set and nothing else happens; `DOUT` is unspecified (R152). -/
def State.raiseFault (s : State) (f : FaultBit) : State :=
  { s with flt := setFaultBit s.flt f }.silent

/-- `result registers <- unspecified` (R27, R103, R107). -/
def State.unspecifyResults (s : State) : State :=
  { s with
    res := Config.freeRes s.draws
    alarm0 := Config.freeAlarm0 s.draws
    alarm1 := Config.freeAlarm1 s.draws
    alarm2 := Config.freeAlarm2 s.draws
    aerr := Config.freeAerr s.draws
    calcReg := Config.freeCalc s.draws
    recvReg := Config.freeRecv s.draws
    ckv := Config.freeCkv s.draws }

/-! ### Several operations in a row -/

/-- One more operation after those already run: what it emits follows what they emitted (R51 (c)). -/
def State.thenRun (s : State) (op : State → State) : State :=
  { op s with tx := s.tx ++ (op s).tx }

/-- The operations run in order from `s`; `tx` collects what they emit (R51). -/
def State.runOps (s : State) (ops : List (State → State)) : State :=
  ops.foldl State.thenRun { s with tx := [] }

end Machine
end Sys2Proof
end

