-- ==== Sys2Proof/Machine/Checksum.lean ====
section
/-! DEFINITION. The Checksum Unit: BCC.CLR, BCC.ABS (spec/40_checksum.md). -/

namespace Sys2Proof
namespace Machine

/-- `BCC.CLR` (R80). -/
def bccClr (s : State) : State := { s with acc := 0 }.silent

/-- `BCC.ABS b` (R81). -/
def bccAbs (b : Byte) (s : State) : State := { s with acc := s.acc ^^^ b }.silent

def execBccClr (s : State) : Host.Outcome State Fault Refusal := .next (bccClr s)

def execBccAbs (b : Byte) (s : State) : Host.Outcome State Fault Refusal := .next (bccAbs b s)

end Machine
end Sys2Proof
end

