-- ==== Sys2Proof/Machine/Cipher.lean ====
section
/-! DEFINITION. The Cipher Unit: XC.BYTE (spec/41_cipher.md). -/

namespace Sys2Proof
namespace Machine

/-- `XC.BYTE b` (R86), for any key. -/
def xcByteWith (p : Config.Params) (b : Byte) (s : State) : State :=
  s.answering (zext16 (cipherByte p.key b))

def execXcByte (b : Byte) (s : State) : Host.Outcome State Fault Refusal :=
  .next (xcByteWith Config.params b s)

end Machine
end Sys2Proof
end

