-- ==== Sys2Proof/Machine/Decoder.lean ====
section
/-! DEFINITION. The frame decoder: FD.CLR, FD.PUSH, FD.DEC, FD.DECX (spec/43_frame_decoder.md). -/

namespace Sys2Proof
namespace Machine

/-- `FD.CLR` (R100): the bytes of `FB` stay. -/
def fdClr (s : State) : State := { s with flen := 0 }.silent

/-- `FD.PUSH b` (R101): the ninth and later bytes are dropped and `FLEN` stays at 9. -/
def fdPush (b : Byte) (s : State) : State :=
  if s.flen.toNat < Config.frameLen then
    { s with fb := frameSet s.fb s.flen.toNat b, flen := s.flen + 1 }.silent
  else { s with flen := 9 }.silent

/-- The registers after a decode that returned no `ParsedFrame` (R27, R103, R107). -/
def decodeFails (d : DStat) (s : State) : State :=
  { s.unspecifyResults with dstat := d }.silent

/-- The registers after a decode of a delimited image (R106, R107); `ACC` plays no part (R108). -/
def decodeSucceeds (p : Config.Params) (w : FrameImage) (s : State) : State :=
  { s with
    res := be16 w.b1 w.b2
    alarm0 := (alarmField p.textValid w.b3 w.b4 w.b5).alarm0
    alarm1 := (alarmField p.textValid w.b3 w.b4 w.b5).alarm1
    alarm2 := (alarmField p.textValid w.b3 w.b4 w.b5).alarm2
    aerr := (alarmField p.textValid w.b3 w.b4 w.b5).aerr
    calcReg := checksum [w.b0, w.b1, w.b2, w.b3, w.b4, w.b5]
    recvReg := w.b6
    ckv := checksumMatches (checksum [w.b0, w.b1, w.b2, w.b3, w.b4, w.b5]) w.b6
    dstat := .ok }.silent

/-- `DECODE_CORE(W)` (R107). -/
def decodeCore (p : Config.Params) (w : FrameImage) (s : State) : State :=
  if w.b0 ≠ Config.sof ∨ w.b7 ≠ Config.eof then decodeFails .framingErr s
  else decodeSucceeds p w s

/-- `FD.DEC` (R103), for any parameters. -/
def fdDecWith (p : Config.Params) (s : State) : State :=
  if s.flen.toNat ≠ Config.frameLen then decodeFails .lengthErr s
  else decodeCore p s.fb s

/-- `FD.DECX` (R105), for any parameters: all eight bytes deciphered, then both delimiters restored. -/
def fdDecxWith (p : Config.Params) (s : State) : State :=
  if s.flen.toNat ≠ Config.frameLen then decodeFails .lengthErr s
  else decodeCore p (frameRepair (frameMap (cipherByte p.key) s.fb)) s

def execFdClr (s : State) : Host.Outcome State Fault Refusal := .next (fdClr s)

def execFdPush (b : Byte) (s : State) : Host.Outcome State Fault Refusal := .next (fdPush b s)

def execFdDec (s : State) : Host.Outcome State Fault Refusal := .next (fdDecWith Config.params s)

def execFdDecx (s : State) : Host.Outcome State Fault Refusal := .next (fdDecxWith Config.params s)

end Machine
end Sys2Proof
end

