-- ==== Sys2Proof/Machine/Encoder.lean ====
section
/-! DEFINITION. The command encoder: FE.OPEN, FE.ARG8, FE.ARG16, FE.CLOSE (spec/42_frame_encoder.md). -/

namespace Sys2Proof
namespace Machine

/-- `FE.OPEN b` (R91). -/
def feOpen (b : Byte) (s : State) : State :=
  if s.estat ≠ .idle then s.raiseFault .seq
  else { s with estat := .opened }.emitting [Config.sof, b]

/-- `FE.ARG8 b` (R92). -/
def feArg8 (b : Byte) (s : State) : State :=
  if s.estat ≠ .opened then s.raiseFault .seq
  else s.emitting [b]

/-- `FE.ARG16 v`: the high byte first (R93). -/
def feArg16 (v : Half) (s : State) : State :=
  if s.estat ≠ .opened then s.raiseFault .seq
  else s.emitting [hi8 v, lo8 v]

/-- `FE.CLOSE` (R94). -/
def feClose (s : State) : State :=
  if s.estat ≠ .opened then s.raiseFault .seq
  else { s with estat := .idle }.emitting [Config.eof]

def execFeOpen (b : Byte) (s : State) : Host.Outcome State Fault Refusal := .next (feOpen b s)

def execFeArg8 (b : Byte) (s : State) : Host.Outcome State Fault Refusal := .next (feArg8 b s)

def execFeArg16 (v : Half) (s : State) : Host.Outcome State Fault Refusal := .next (feArg16 v s)

def execFeClose (s : State) : Host.Outcome State Fault Refusal := .next (feClose s)

end Machine
end Sys2Proof
end

