-- ==== Sys2Proof/Machine/Receiver.lean ====
section
/-! DEFINITION. The file receiver: RX.START, RX.PUT, RX.TMO, RX.RDB (spec/45_file_receiver.md). -/

namespace Sys2Proof
namespace Machine

/-- `RX.START` (R131): admitted in every state; the bytes of `RBUF` stay. -/
def rxStart (s : State) : State := { s with rlen := 0, rstat := .recv }.silent

/-- `RBUF[RLEN] <- b ; RLEN <- RLEN + 1` (R43, R132). -/
def State.append (s : State) (b : Byte) : State :=
  { s with rbuf := Memory.write s.rbuf s.rlen.toNat b, rlen := s.rlen + 1 }

/-- The sentinel test: the last two bytes of the buffer, never of a shorter one (R133, R134). -/
def State.sentinelSeen (s : State) : Bool :=
  decide (2 ≤ s.rlen.toNat) &&
    s.rbufByte (s.rlen.toNat - 2) == Config.sentinelByte &&
    s.rbufByte (s.rlen.toNat - 1) == Config.sentinelByte

/-- The two sentinel bytes trimmed and the reception ended (R132, R135). -/
def State.trimSentinel (s : State) : State := { s with rlen := s.rlen - 2, rstat := .done }

/-- `RX.PUT b, last` (R132), for any parameters; the test is made only at the end of an append (R133). -/
def rxPutWith (p : Config.Params) (b : Byte) (last : Bool) (s : State) : State :=
  if s.rstat ≠ .recv then s.raiseFault .seq
  else if s.rlen = p.bufCap then s.raiseFault .ovf
  else if last && (s.append b).sentinelSeen then (s.append b).trimSentinel.silent
  else (s.append b).silent

/-- `RX.TMO` (R138): nothing outside `RECV`. -/
def rxTmo (s : State) : State :=
  if s.rstat = .recv then { s with rstat := .timeout }.silent else s.silent

/-- `RX.RDB a` (R139). -/
def rxRdb (a : Half) (s : State) : State :=
  if s.rlen ≤ a then s.raiseFault .adr
  else s.answering (zext16 (s.rbufByte a.toNat))

def execRxStart (s : State) : Host.Outcome State Fault Refusal := .next (rxStart s)

def execRxPut (b : Byte) (last : Bool) (s : State) : Host.Outcome State Fault Refusal :=
  .next (rxPutWith Config.params b last s)

def execRxTmo (s : State) : Host.Outcome State Fault Refusal := .next (rxTmo s)

def execRxRdb (a : Half) (s : State) : Host.Outcome State Fault Refusal := .next (rxRdb a s)

end Machine
end Sys2Proof
end

