-- ==== Sys2Proof/Machine/System.lean ====
section
/-! DEFINITION. The system operations NOP, RD, RST (spec/46_system_ops.md). -/

namespace Sys2Proof
namespace Machine

/-- `NOP` (R143). -/
def nop (s : State) : State := s.silent

/-- `RD r` (R144), for any parameters. -/
def rdWith (p : Config.Params) (r : StatusReg) (s : State) : State :=
  s.answering (readStatus p s r)

/-- `RST` (R145): the block's reset state; the host's words stay presented (log 4). -/
def rst (s : State) : State := State.atReset s.draws s.presented

def execNop (s : State) : Host.Outcome State Fault Refusal := .next (nop s)

def execRd (r : StatusReg) (s : State) : Host.Outcome State Fault Refusal :=
  .next (rdWith Config.params r s)

def execRst (s : State) : Host.Outcome State Fault Refusal := .next (rst s)

end Machine
end Sys2Proof
end

