-- ==== Sys2Proof/Machine/Wire.lean ====
section
/-! DEFINITION. The wire messages of the opcode table (R65 to R71). A message is no operation word: what the block
does for one is the run of operations the spec gives for it (R75), and that run, as one step, is its meaning here
(log 7). -/

namespace Sys2Proof
namespace Machine

/-- A Command of `opcode` with no arguments (R98, R116). -/
def sendModeCommand (opcode : Byte) (s : State) : State :=
  s.runOps [feOpen opcode, feClose]

/-- The mode-1 Command (R97, R117). -/
def sendAdjust (lower upper frequency : Half) (s : State) : State :=
  s.runOps [feOpen Config.opcAdjust, feArg16 lower, feArg16 upper, feArg16 frequency, feClose]

/-- A new frame pushed into the buffer and decoded by `decodeOp` (R118, R119). -/
def receiveFrame (decodeOp : State → State) (raw : FrameImage) (s : State) : State :=
  s.runOps [fdClr, fdPush raw.b0, fdPush raw.b1, fdPush raw.b2, fdPush raw.b3, fdPush raw.b4, fdPush raw.b5,
    fdPush raw.b6, fdPush raw.b7, decodeOp]

/-- `WIRE.Frame`: "decoded by FD.DEC" (R66, R118). -/
def execWireFrame (raw : FrameImage) (s : State) : Host.Outcome State Fault Refusal :=
  .next (receiveFrame (fdDecWith Config.params) raw s)

/-- `WIRE.EncryptedFrame`: "decoded by FD.DECX" (R67, R119). -/
def execWireEncryptedFrame (raw : FrameImage) (s : State) : Host.Outcome State Fault Refusal :=
  .next (receiveFrame (fdDecxWith Config.params) raw s)

/-- `CMD.ADJUST` (R70, R97). -/
def execCmdAdjust (lower upper frequency : Half) (s : State) : Host.Outcome State Fault Refusal :=
  .next (sendAdjust lower upper frequency s)

/-- `CMD.STREAM` (R70, R98). -/
def execCmdStream (s : State) : Host.Outcome State Fault Refusal :=
  .next (sendModeCommand Config.opcStream s)

/-- `CMD.XSTREAM` (R70, R98). -/
def execCmdXstream (s : State) : Host.Outcome State Fault Refusal :=
  .next (sendModeCommand Config.opcXstream s)

/-- `CMD.FILE` (R70, R98). -/
def execCmdFile (s : State) : Host.Outcome State Fault Refusal :=
  .next (sendModeCommand Config.opcFile s)

/-- `WIRE.Sentinel`: the two bytes as one append, "detected by RX.PUT with last = 1" (R71, R120, R132). -/
def execWireSentinel (s : State) : Host.Outcome State Fault Refusal :=
  .next (s.runOps [rxPutWith Config.params Config.sentinelByte false,
    rxPutWith Config.params Config.sentinelByte true])

end Machine
end Sys2Proof
end

