-- ==== Sys2Proof/Machine/Dispatch.lean ====
section
/-! DEFINITION. The one dispatch from instructions to meanings. -/

namespace Sys2Proof
namespace Machine

/-- The meaning of an instruction: one arm per constructor. -/
def exec (i : Instr) (s : State) : Host.Outcome State Fault Refusal :=
  match i with
  | .nop => Sys2Proof.Machine.execNop s
  | .rd r => Sys2Proof.Machine.execRd r s
  | .rst => Sys2Proof.Machine.execRst s
  | .bccClr => Sys2Proof.Machine.execBccClr s
  | .bccAbs b => Sys2Proof.Machine.execBccAbs b s
  | .xcByte b => Sys2Proof.Machine.execXcByte b s
  | .feOpen b => Sys2Proof.Machine.execFeOpen b s
  | .feArg8 b => Sys2Proof.Machine.execFeArg8 b s
  | .feArg16 v => Sys2Proof.Machine.execFeArg16 v s
  | .feClose => Sys2Proof.Machine.execFeClose s
  | .fdClr => Sys2Proof.Machine.execFdClr s
  | .fdPush b => Sys2Proof.Machine.execFdPush b s
  | .fdDec => Sys2Proof.Machine.execFdDec s
  | .fdDecx => Sys2Proof.Machine.execFdDecx s
  | .rxStart => Sys2Proof.Machine.execRxStart s
  | .rxPut b last => Sys2Proof.Machine.execRxPut b last s
  | .rxTmo => Sys2Proof.Machine.execRxTmo s
  | .rxRdb a => Sys2Proof.Machine.execRxRdb a s
  | .wireFrame raw => Sys2Proof.Machine.execWireFrame raw s
  | .wireEncryptedFrame raw => Sys2Proof.Machine.execWireEncryptedFrame raw s
  | .cmdAdjust lower upper frequency => Sys2Proof.Machine.execCmdAdjust lower upper frequency s
  | .cmdStream => Sys2Proof.Machine.execCmdStream s
  | .cmdXstream => Sys2Proof.Machine.execCmdXstream s
  | .cmdFile => Sys2Proof.Machine.execCmdFile s
  | .wireSentinel => Sys2Proof.Machine.execWireSentinel s

end Machine
end Sys2Proof
end

