-- ==== Sys2Proof/Machine/Fetch.lean ====
section
/-! DEFINITION. What a step takes from the environment, and what it does when that is no instruction. The block has
no program counter and fetches nothing (R31): the host presents one item at a time (log 1). -/

namespace Sys2Proof
namespace Machine

/-- The next presentation and the state in which it is performed; nothing when nothing is presented. -/
def fetch (s : State) : Option (Presentation × State) :=
  match s.presented with
  | [] => none
  | p :: rest => some (p, { s with presented := rest })

/-- Nothing is presented: nothing changes between operations (R13, R167). -/
def idle (s : State) : Host.Outcome State Fault Refusal := .next s.silent

/-- An illegal operation word raises ILL and does nothing else (R58, R63); bytes that are no message have no
procedure (log 10). -/
def rejected (r : Reject) (s : State) : Host.Outcome State Fault Refusal :=
  match r with
  | .illegalOp => .next (s.raiseFault .ill)
  | .reservedOperandBits => .next (s.raiseFault .ill)
  | .notAMessage => .refused .notAMessage

/-- The state in which `p` is presented next, before everything presented already. -/
def present (p : Presentation) (s : State) : State := { s with presented := p :: s.presented }

end Machine
end Sys2Proof
end

