-- ==== Sys2Proof/Machine/Step.lean ====
section
/-! DEFINITION. One step: take what is presented, decode it, perform it (R13). -/

namespace Sys2Proof
namespace Machine

/-- One step of the machine. -/
def step (s : State) : Host.Outcome State Fault Refusal :=
  match fetch s with
  | none => idle s
  | some (p, s') =>
    match decode p with
    | .ok i => exec i s'
    | .error r => rejected r s'

/-- The state in which the table row's bits are what the next step performs (log 1, log 10). -/
def State.withFetchWord (s : State) (nbits w : Nat) : State :=
  present (tablePresentation nbits w) s

end Machine
end Sys2Proof
end

