-- ==== Sys2Proof/Machine/Procedures.lean ====
section
/-! DEFINITION. The document's functions as operation sequences, the pseudo-instructions of R75 (R114 to R120): runs
of operations with their outputs collected (R51), and host programs, whose later operations depend on what was read. -/

namespace Sys2Proof
namespace Machine

/-! ### Operations one after another -/

/-- What a run of operations leaves and what it put out, step by step. -/
structure Run where
  /-- the state after the last operation -/
  final : State
  /-- every byte emitted on `TX`, in order (R51 (c)) -/
  tx : List Byte
  /-- the value of `DOUT` after each operation -/
  douts : List Half
  deriving DecidableEq, Repr

/-- The operations performed one after another, each to completion before the next (R7, R51). -/
def runProgram : List Instr → State → Host.Outcome Run Fault Refusal
  | [], s => .next ⟨s, [], []⟩
  | i :: is, s =>
    match exec i s with
    | .next t =>
      match runProgram is t with
      | .next r => .next ⟨r.final, t.tx ++ r.tx, t.dout :: r.douts⟩
      | .fault f => .fault f
      | .refused f => .refused f
    | .fault f => .fault f
    | .refused f => .refused f

/-- `checksum(s)` as operations; the result is the last `DOUT` (R114). -/
def checksumProc (s : List Byte) : List Instr :=
  .bccClr :: s.map .bccAbs ++ [.rd .acc]

/-- `cipher(s)` as operations; the result is the low bytes of the `DOUT`s (R115). -/
def cipherProc (s : List Byte) : List Instr := s.map .xcByte

/-- `encode_command(opcode, args)` as operations; the result is what they emit (R116). -/
def encodeProc (opcode : Byte) (args : List Byte) : List Instr :=
  .feOpen opcode :: args.map .feArg8 ++ [.feClose]

/-- `encode_command(0x01, [lo, hi, freq])` as operations (R117). -/
def adjustProc (lower upper frequency : Half) : List Instr :=
  [.feOpen Config.opcAdjust, .feArg16 lower, .feArg16 upper, .feArg16 frequency, .feClose]

/-- The operations of `decode_frame(raw)` before the reads (R118). -/
def decodeOps (raw : List Byte) : List Instr :=
  .fdClr :: raw.map .fdPush ++ [.fdDec]

/-- The operations of `decode_encrypted_frame(raw)` before the reads (R119). -/
def decodeEncryptedOps (raw : List Byte) : List Instr :=
  .fdClr :: raw.map .fdPush ++ [.fdDecx]

/-- The bytes of one poll as one append: `last` on the final byte only; an empty poll gives nothing (R120, R136). -/
def appendProc : List Byte → List Instr
  | [] => []
  | [b] => [.rxPut b true]
  | b :: bs => .rxPut b false :: appendProc bs

/-- The operations that stand for a wire message (R75, R97, R98, R117 to R120); an operation stands for itself. -/
def expand : Instr → List Instr
  | .wireFrame raw => decodeOps raw.bytes
  | .wireEncryptedFrame raw => decodeEncryptedOps raw.bytes
  | .cmdAdjust lower upper frequency => adjustProc lower upper frequency
  | .cmdStream => encodeProc Config.opcStream []
  | .cmdXstream => encodeProc Config.opcXstream []
  | .cmdFile => encodeProc Config.opcFile []
  | .wireSentinel => appendProc [Config.sentinelByte, Config.sentinelByte]
  | .nop => [.nop]
  | .rd r => [.rd r]
  | .rst => [.rst]
  | .bccClr => [.bccClr]
  | .bccAbs b => [.bccAbs b]
  | .xcByte b => [.xcByte b]
  | .feOpen b => [.feOpen b]
  | .feArg8 b => [.feArg8 b]
  | .feArg16 v => [.feArg16 v]
  | .feClose => [.feClose]
  | .fdClr => [.fdClr]
  | .fdPush b => [.fdPush b]
  | .fdDec => [.fdDec]
  | .fdDecx => [.fdDecx]
  | .rxStart => [.rxStart]
  | .rxPut b last => [.rxPut b last]
  | .rxTmo => [.rxTmo]
  | .rxRdb a => [.rxRdb a]

/-! ### Host programs: `x <- RD NAME` means "give `RD NAME` and take `DOUT`" -/

/-- What a host does with the block until it has a result: it gives an operation, and the value of `DOUT` decides how
it goes on. -/
inductive HostProgram (α : Type) where
  | done (value : α)
  | give (i : Instr) (next : Half → HostProgram α)

/-- What a host program leaves, what it made the block emit, and its result. -/
structure Answer (α : Type) where
  /-- the state after the last operation -/
  final : State
  /-- every byte emitted on `TX`, in order (R51 (c)) -/
  tx : List Byte
  /-- the result -/
  value : α
  deriving DecidableEq, Repr

/-- A host program run on the block. -/
def HostProgram.run {α : Type} : HostProgram α → State → Host.Outcome (Answer α) Fault Refusal
  | .done a, s => .next ⟨s, [], a⟩
  | .give i next, s =>
    match exec i s with
    | .next t =>
      match (next t.dout).run t with
      | .next r => .next ⟨r.final, t.tx ++ r.tx, r.value⟩
      | .fault f => .fault f
      | .refused f => .refused f
    | .fault f => .fault f
    | .refused f => .refused f

/-- The operations given one after another, nothing taken from them. -/
def giveAll {α : Type} (is : List Instr) (rest : HostProgram α) : HostProgram α :=
  is.foldr (fun i k => .give i fun _ => k) rest

/-- The operations given one after another, the `DOUT` of each collected. -/
def collect {α : Type} : List Instr → (List Half → HostProgram α) → HostProgram α
  | [], rest => rest []
  | i :: is, rest => .give i fun v => collect is fun vs => rest (v :: vs)

/-- The reads after a decode: `RD DSTAT` first, the result registers only if it is `OK` (R118, R172). -/
def readDecoded : HostProgram (Except DecodeError ParsedFrame) :=
  .give (.rd .dstat) fun st =>
    if st = (dstatCode .lengthErr).setWidth 16 then .done (.error .lengthError)
    else if st = (dstatCode .framingErr).setWidth 16 then .done (.error .framingError)
    else
      .give (.rd .res) fun res => .give (.rd .alarm0) fun a0 => .give (.rd .alarm1) fun a1 =>
      .give (.rd .alarm2) fun a2 => .give (.rd .calcReg) fun calculated => .give (.rd .recvReg) fun received =>
      .give (.rd .ckv) fun valid => .done (.ok {
        resistance := res
        alarmStatus := [lo8 a0, lo8 a1, lo8 a2]
        calculatedChecksum := lo8 calculated
        receivedChecksum := lo8 received
        checksumValid := valid == 1 })

/-- `decode_frame(raw)` on the block (R118). -/
def decodeProc (raw : List Byte) : HostProgram (Except DecodeError ParsedFrame) :=
  giveAll (decodeOps raw) readDecoded

/-- `decode_encrypted_frame(raw)` on the block (R119). -/
def decodeEncryptedProc (raw : List Byte) : HostProgram (Except DecodeError ParsedFrame) :=
  giveAll (decodeEncryptedOps raw) readDecoded

/-- The reads after a reception: `RD RLEN`, `RX.RDB a` for each `a < RLEN`, `RD RSTAT` (R120, R140). -/
def readReceived {α : Type} (rest : FileTransferResult → HostProgram α) : HostProgram α :=
  .give (.rd .rlen) fun n =>
    collect ((List.range n.toNat).map fun a => .rxRdb (BitVec.ofNat 16 a)) fun bytes =>
      .give (.rd .rstat) fun st =>
        rest { data := bytes.map lo8, timedOut := st == (rstatCode .timeout).setWidth 16 }

/-- The head of the loop: `if (RD RSTAT) != RECV then break` (R120); `body` is one more turn. -/
def whileReceiving {α : Type} (body : HostProgram α) (rest : FileTransferResult → HostProgram α) :
    HostProgram α :=
  .give (.rd .rstat) fun st =>
    if st = (rstatCode .recv).setWidth 16 then body else readReceived rest

/-- The loop of `receive_file`: the polls that come before the deadline, then the timer's `RX.TMO`, after which the
loop's head finds `RSTAT` other than `RECV` (R120, R161). -/
def receiveTurns : List (List Byte) → HostProgram FileTransferResult
  | [] => whileReceiving (.give .rxTmo fun _ => whileReceiving (readReceived .done) .done) .done
  | c :: polls => whileReceiving (giveAll (appendProc c) (receiveTurns polls)) .done

/-- `receive_file(deadline)` on the block (R120). -/
def receiveProc (polls : List (List Byte)) : HostProgram FileTransferResult :=
  .give .rxStart fun _ => receiveTurns polls

/-! ### What such a program's reads would find, as functions of the state -/

/-- The outcome of the last decode that stands in `DSTAT` and the result registers (R118, R172); `none` before any
decode. -/
def decodeOutcome (s : State) : Option (Except DecodeError ParsedFrame) :=
  match s.dstat with
  | .none => none
  | .lengthErr => some (.error .lengthError)
  | .framingErr => some (.error .framingError)
  | .ok => some (.ok {
      resistance := s.res
      alarmStatus := [s.alarm0, s.alarm1, s.alarm2]
      calculatedChecksum := s.calcReg
      receivedChecksum := s.recvReg
      checksumValid := s.ckv })

/-- `RBUF[0..n)`. -/
def receivedBytes (s : State) (n : Nat) : List Byte := (List.range n).map s.rbufByte

/-- The `FileTransferResult` that stands in the state (R140). -/
def fileResult (s : State) : FileTransferResult :=
  ⟨receivedBytes s s.rlen.toNat, decide (s.rstat = .timeout)⟩

end Machine
end Sys2Proof
end

