-- ==== Sys2Proof/Machine/Session.lean ====
section
/-! DEFINITION. The Session Controller, the host of the block (R121 to R129): its state machine for the four modes,
driven by what the Transport Port, the timer and the caller do. It is outside the block (R3 (d), R40): nothing here
is in `State`, and `step` does not read it (log 13). -/

namespace Sys2Proof
namespace Machine

/-- The four modes (R14, R122, R123, R127). -/
inductive Mode where
  | adjust (lower upper frequency : Half)
  | stream
  | encryptedStream
  | file
  deriving DecidableEq, Repr

/-- Why a session is over: what its caller is told. -/
inductive Ending where
  /-- mode 1 is terminal after its one write (R122) -/
  | commandWritten
  /-- the Transport Port could not be opened: `ConnectError`, fatal to the whole run, surfaced, not retried (R129) -/
  | connectError
  /-- the write of the Command failed, fatal to the session (R121, R129) -/
  | writeError
  /-- the caller's stop request (R126, R128) -/
  | stopped
  /-- the receiver completed, mode 4 (R127) -/
  | fileReceived
  deriving DecidableEq, Repr

/-- The states of R121. `Continue` is the return to `receiving`. -/
inductive Phase where
  | idle
  | commandSent
  | receiving
  | exited (why : Ending)
  deriving DecidableEq, Repr

/-- What the caller, the Transport Port (R160) and the timer (R161) do. -/
inductive HostEvent where
  /-- `open` of the Transport Port succeeded -/
  | openOk
  /-- `open` failed with `ConnectError` (R129) -/
  | openFailed
  /-- the mode is invoked -/
  | start
  /-- `write` succeeded -/
  | writeOk
  /-- `write` failed with `IoError` -/
  | writeFailed
  /-- a read returned these bytes, possibly none (R160) -/
  | read (bytes : List Byte)
  /-- a read failed with `IoError` (R129) -/
  | readFailed
  /-- the caller's stop request (R126) -/
  | stop
  /-- the elapsed time exceeds `DEADLINE` (R161) -/
  | deadline
  deriving DecidableEq, Repr

/-- What is yielded to the caller (R123, R125, R127). -/
inductive Report where
  | parsed (frame : ParsedFrame)
  | malformed (error : DecodeError)
  | received (result : FileTransferResult)
  deriving DecidableEq, Repr

/-- A session: its mode, whether its Transport Port is open, its phase, the block it drives, the bytes handed to
`write`, what it yielded. -/
structure Session where
  mode : Mode
  portOpen : Bool
  phase : Phase
  block : State
  written : List Byte
  reports : List Report
  deriving DecidableEq, Repr

/-- The operations that build the mode-select Command (R98, R122, R123, R127). -/
def modeCommand : Mode → List Instr
  | .adjust lower upper frequency => adjustProc lower upper frequency
  | .stream => encodeProc Config.opcStream []
  | .encryptedStream => encodeProc Config.opcXstream []
  | .file => encodeProc Config.opcFile []

/-- The session's block driven by a host program, and what the session makes of the answer. Every operation has a
next state (R13), so the other two cases do not arise. -/
def Session.perform {α : Type} (x : Session) (program : HostProgram α) (use : Answer α → Session → Session) :
    Session :=
  match program.run x.block with
  | .next r => use r { x with block := r.final }
  | .fault _ => x
  | .refused _ => x

/-- `Idle → CommandSent`: the Command is built and handed to the Transport Port (R121), which is open by then
(R170). -/
def sendCommand (x : Session) : Session :=
  if x.portOpen then
    x.perform (giveAll (modeCommand x.mode) (.done ())) fun r y =>
      { y with phase := .commandSent, written := y.written ++ r.tx }
  else x

/-- The head of the receiver's loop: a result once `RSTAT` has left `RECV` (R120). -/
def checkReceived : HostProgram (Option FileTransferResult) :=
  whileReceiving (.done none) fun result => .done (some result)

/-- The operations of a turn of the receiver, then the head of its loop: a completed reception is yielded and ends
the session (R127, R128). -/
def receiverTurn (ops : List Instr) (x : Session) : Session :=
  x.perform (giveAll ops checkReceived) fun r y =>
    match r.value with
    | some result => { y with phase := .exited .fileReceived, reports := y.reports ++ [.received result] }
    | none => y

/-- The Command was written: mode 1 is over (R122), modes 2 and 3 read frames (R123), mode 4 delegates to the
receiver (R127). -/
def commandWritten (x : Session) : Session :=
  match x.mode with
  | .adjust _ _ _ => { x with phase := .exited .commandWritten }
  | .stream => { x with phase := .receiving }
  | .encryptedStream => { x with phase := .receiving }
  | .file => receiverTurn [.rxStart] { x with phase := .receiving }

/-- What a decode yields: the reading, mismatched or not, or the error (R123, R125). -/
def decodeReport : Except DecodeError ParsedFrame → Report
  | .ok frame => .parsed frame
  | .error e => .malformed e

/-- One turn of the streaming loop: eight bytes are decoded and the outcome yielded (R123, R125); a short or empty
read is no frame, and its bytes are dropped (R124). -/
def streamTurn (procedure : List Byte → HostProgram (Except DecodeError ParsedFrame)) (bytes : List Byte)
    (x : Session) : Session :=
  if bytes.length = Config.frameLen then
    x.perform (procedure bytes) fun r y => { y with reports := y.reports ++ [decodeReport r.value] }
  else x

/-- A read while receiving (R123, R124, R127). -/
def readTurn (bytes : List Byte) (x : Session) : Session :=
  match x.mode with
  | .adjust _ _ _ => x
  | .stream => streamTurn decodeProc bytes x
  | .encryptedStream => streamTurn decodeEncryptedProc bytes x
  | .file => receiverTurn (appendProc bytes) x

/-- The deadline while receiving: `RX.TMO` in mode 4 (R127, R138, R161); the streaming modes have none (R126). -/
def deadlineTurn (x : Session) : Session :=
  match x.mode with
  | .adjust _ _ _ => x
  | .stream => x
  | .encryptedStream => x
  | .file => receiverTurn [.rxTmo] x

/-- One event of the session (R121 to R129); a failed read is an empty poll (R129). An event that the phase does not
await changes nothing (log 13). -/
def sessionTurn (e : HostEvent) (x : Session) : Session :=
  match x.phase, e with
  | .idle, .openOk => { x with portOpen := true }
  | .idle, .openFailed => if x.portOpen then x else { x with phase := .exited .connectError }
  | .idle, .start => sendCommand x
  | .commandSent, .writeOk => commandWritten x
  | .commandSent, .writeFailed => { x with phase := .exited .writeError }
  | .receiving, .read bytes => readTurn bytes x
  | .receiving, .readFailed => readTurn [] x
  | .receiving, .stop => { x with phase := .exited .stopped }
  | .receiving, .deadline => deadlineTurn x
  | _, _ => x

/-- A session from its events. -/
def sessionRun (events : List HostEvent) (x : Session) : Session :=
  events.foldl (fun y e => sessionTurn e y) x

end Machine
end Sys2Proof
end

