-- ==== Sys2Proof/Safety.lean ====
section
/-! DEFINITION. What counts as a safe run, in the terms the claims use: the invariant, the kinds of instructions,
the launch premise, and a word presented to the block. -/

namespace Sys2Proof
namespace Machine

/-- The result registers fit together after a decode that returned a reading (R19, R22, R23). -/
structure ResultsConsistent (s : State) : Prop where
  checksumFlag : s.ckv = (s.calcReg == s.recvReg)
  substituted : s.aerr = true → [s.alarm0, s.alarm1, s.alarm2] = [0x45, 0x52, 0x52]
  passedThrough : s.aerr = false →
    s.alarm0.toNat ≤ 0x7F ∧ s.alarm1.toNat ≤ 0x7F ∧ s.alarm2.toNat ≤ 0x7F

/-- The invariant of every step. -/
structure Inv (s : State) : Prop where
  /-- the legal values of `FLEN` (R25) -/
  pushCount : s.flen.toNat ≤ 9
  /-- the canonical form of `RBUF` -/
  canonical : Memory.wf s.rbuf = true
  /-- every listed address exists (R41) -/
  addresses : ∀ c ∈ s.rbuf, c.1 < 65535
  /-- every byte a program can read was received (R30) -/
  received : ∀ a, a < s.rlen.toNat → (Memory.lookup s.rbuf a).isSome = true
  /-- before the first reception nothing was received (R139) -/
  idleEmpty : s.rstat = .idle → s.rlen = 0
  /-- the result registers after `OK` -/
  results : s.dstat = .ok → ResultsConsistent s

/-- The eighteen operations of R62, as against the wire messages. -/
def isOperation : Instr → Bool
  | .wireFrame _ => false
  | .wireEncryptedFrame _ => false
  | .cmdAdjust _ _ _ => false
  | .cmdStream => false
  | .cmdXstream => false
  | .cmdFile => false
  | .wireSentinel => false
  | _ => true

/-- The operations of the encoder, and the messages it builds: all that emits (R60). -/
def emits : Instr → Bool
  | .feOpen _ => true
  | .feArg8 _ => true
  | .feArg16 _ => true
  | .feClose => true
  | .cmdAdjust _ _ _ => true
  | .cmdStream => true
  | .cmdXstream => true
  | .cmdFile => true
  | _ => false

/-- What stores into `RBUF`, or resets it (R34). -/
def storesReceived : Instr → Bool
  | .rxPut _ _ => true
  | .wireSentinel => true
  | .rst => true
  | _ => false

/-- What decodes a frame, or resets the result registers (R34). -/
def writesResults : Instr → Bool
  | .fdDec => true
  | .fdDecx => true
  | .wireFrame _ => true
  | .wireEncryptedFrame _ => true
  | .rst => true
  | _ => false

/-- Reachable from a hardware reset by legal operations (R168): whatever the reset leaves unspecified, and whatever the
host has presented. -/
inductive Reachable : State → Prop where
  | reset (draw : Nat) (presented : List Presentation) : Reachable (State.atReset draw presented)
  | operation {s t : State} {i : Instr} :
    Reachable s → isOperation i = true → exec i s = .next t → Reachable t

/-- The uses of the block that have a start-of-use operation (R169). -/
inductive Use where
  | checksum | frame | command | reception
  deriving DecidableEq, Repr

/-- Is the operation the start of the use (R169)? For a Command it is an `FE.OPEN` from `ESTAT = IDLE`, the second
half being part of `Launch`. -/
def Use.beginsWith : Use → Instr → Bool
  | .checksum, i => i == .bccClr
  | .frame, i => i == .fdClr
  | .command, .feOpen _ => true
  | .command, _ => false
  | .reception, i => i == .rxStart

/-- The shared launch premise of a claim about one use of the block by a program (R168). -/
structure Launch (use : Use) (program : List Instr) (s : State) : Prop where
  reachable : Reachable s
  noFault : s.flt = 0
  encoderIdle : s.estat = .idle
  startOfUse : ∃ i rest, program = i :: rest ∧ use.beginsWith i = true

/-- `s` with the eight result registers of `q`: how a claim says that they are unspecified, for some `q` (R27). -/
def State.withResultsOf (s q : State) : State :=
  { s with
    res := q.res
    alarm0 := q.alarm0
    alarm1 := q.alarm1
    alarm2 := q.alarm2
    aerr := q.aerr
    calcReg := q.calcReg
    recvReg := q.recvReg
    ckv := q.ckv }

/-- The step of the block when the host presents the operation word `w` next. -/
def stepOn (w : OpWord) (s : State) : Host.Outcome State Fault Refusal := step (present (.word w) s)

/-- The outcome of an operation that raised ILL and did nothing else (R58, R63, R152). -/
def RaisesIll (s : State) (o : Host.Outcome State Fault Refusal) : Prop :=
  ∃ d n, o = .next { s with flt := s.flt ||| 0b0001, tx := [], dout := d, draws := n }

/-- The bytes absorbed since the last clear or reset, after the operations, when `sofar` were absorbed before them
(R16). -/
def absorbed (sofar : List Byte) : List Instr → List Byte
  | [] => sofar
  | .bccClr :: is => absorbed [] is
  | .rst :: is => absorbed [] is
  | .bccAbs b :: is => absorbed (sofar ++ [b]) is
  | _ :: is => absorbed sofar is

end Machine
end Sys2Proof
end

