-- ==== Sys2Proof/Certificates/Slice0/Obligations.lean ====
section
/-! DEFINITION. The statements for the provers. `∃ d n` in a next state says that `DOUT` is some value (R36) and the
draw counter is some number; every field that is not named in a next state is as it was: that is the frame. -/

open Sys2Proof Sys2Proof.Machine

/-! ### Reset, the step and the invariant -/

/-- What R39 and R166 give for reset. -/
def Obligations.ResetLeavesTheSpecifiedValues : Prop :=
  State.reset.acc = 0 ∧ State.reset.flen = 0 ∧ State.reset.dstat = .none ∧ State.reset.estat = .idle ∧
  State.reset.rstat = .idle ∧ State.reset.rlen = 0 ∧ State.reset.flt = 0 ∧ State.reset.tx = [] ∧
  Config.key = 0xAA

/-- The clauses of `Inv` about `RBUF` hold at reset because the model's reset empties the list (log 5), and its bound on
the addresses is the default of an open parameter (log 8): R39 leaves `RBUF` unspecified. -/
def Obligations.ResetSatisfiesTheInvariant : Prop := Inv State.reset

/-- From every state that has it, in a run or not, a step keeps the invariant. Its form of `RBUF` is the model's
(log 5), its bound on the addresses and its text test are defaults of open parameters (log 8), and its "ERR" is by the
spec's general knowledge (R77, log 9). -/
def Obligations.StepKeepsTheInvariant : Prop :=
  ∀ s s' : State, Inv s → step s = .next s' → Inv s'

/-- The block performs what is presented (R13), and takes it from the front of what the host has to present; the
list `presented` is the model's (log 1). -/
def Obligations.StepRunsTheDecodedInstruction : Prop :=
  ∀ (s : State) (p : Presentation) (rest : List Presentation) (i : Instr),
    s.presented = p :: rest → decode p = .ok i → step s = exec i { s with presented := rest }

/-- R13, R167: nothing changes between operations. -/
def Obligations.NothingPresentedNothingChanges : Prop :=
  ∀ s : State, s.presented = [] →
    ∃ d n, step s = .next { s with tx := [], dout := d, draws := n }

/-- R13: every operation word has an outcome, with at most two bytes emitted. -/
def Obligations.EveryOperationWordHasAnOutcome : Prop :=
  ∀ (w : OpWord) (s : State), ∃ t, stepOn w s = .next t ∧ t.tx.length ≤ 2

/-- R58, R63: a word is illegal exactly when it matches no row of R62, and an illegal word raises ILL and nothing
else; the illegal `op` values are the 238 of R63. -/
def Obligations.IllegalWordRaisesIllAndNothingElse : Prop :=
  (∀ w : OpWord, (∃ i, decodeWord w = .ok i) ↔ ∃ row ∈ opcodeTable, w &&& row.mask = row.pattern) ∧
  (∀ (w : OpWord) (s : State), (¬ ∃ i, decodeWord w = .ok i) → RaisesIll s (stepOn w s)) ∧
  (∀ (op : Byte) (opd : Half), ((0x02 ≤ op ∧ op ≤ 0x0E) ∨ (0x12 ≤ op ∧ op ≤ 0x1F) ∨ (0x21 ≤ op ∧ op ≤ 0x2F) ∨
      (0x34 ≤ op ∧ op ≤ 0x3F) ∨ (0x44 ≤ op ∧ op ≤ 0x4F) ∨ 0x54 ≤ op) ↔
    decodeWord (op ++ opd) = .error .illegalOp)

/-- No bit of an encoding is dropped. -/
def Obligations.DecodeOfEncodeIsTheInstruction : Prop :=
  ∀ i : Instr, i.wellFormed = true → decode (encode i) = .ok i

/-- What is decoded has one encoding, and is well-formed: words and messages. How messages are told apart is the model's
(log 10). -/
def Obligations.EncodeOfDecodeIsThePresentation : Prop :=
  ∀ (p : Presentation) (i : Instr), decode p = .ok i → encode i = p ∧ i.wellFormed = true

/-- Words as spec/95_test_vectors.md writes them, and the messages of R70 and R66. -/
def Obligations.WordsOfTheSpecDecodeAsWritten : Prop :=
  decodeWord 0x010004 = .ok (.rd .res) ∧ decodeWord 0x11007B = .ok (.bccAbs 0x7B) ∧
  decodeWord 0x20007B = .ok (.xcByte 0x7B) ∧ decodeWord 0x3201F4 = .ok (.feArg16 500) ∧
  decodeWord 0x41007D = .ok (.fdPush 0x7D) ∧ decodeWord 0x5101FF = .ok (.rxPut 0xFF true) ∧
  decodeWord 0x510068 = .ok (.rxPut 0x68 false) ∧ decodeWord 0x530005 = .ok (.rxRdb 5) ∧
  decodeWord 0x0F0001 = .error .reservedOperandBits ∧ decodeWord 0x020000 = .error .illegalOp ∧
  decodeMessage [0x7B, 0x01, 0x00, 0x0A, 0x01, 0xF4, 0x00, 0x02, 0x7D] = .ok (.cmdAdjust 10 500 2) ∧
  decodeMessage [0x7B, 0x00, 0x64, 0x4F, 0x4B, 0x20, 0x3B, 0x7D] =
    .ok (.wireFrame ⟨0x7B, 0x00, 0x64, 0x4F, 0x4B, 0x20, 0x3B, 0x7D⟩)

/-- The model's interface: the table row's bits, placed where the next step takes them, are what it runs. -/
def Obligations.TableWordIsRunByTheNextStep : Prop :=
  ∀ (nbits w : Nat) (i : Instr) (s : State),
    decodeTableWord nbits w = some i → step (s.withFetchWord nbits w) = exec i s

/-- R7, R51: the operations take effect one after another in the order presented. The list presented is the model's
(log 1), `RST` keeps it (log 4), and a message is one step (log 7). -/
def Obligations.PresentedProgramRunsInOrder : Prop :=
  ∀ (is : List Instr) (s : State), (∀ i ∈ is, i.wellFormed = true) →
    ∃ r, runProgram is s = .next r ∧
      Host.Core.run core is.length { s with presented := is.map encode ++ s.presented } = .next r.final

/-- The model's reading of the table's wire rows (log 7): a message does what the operations do that the spec gives
for it, run one by one. -/
def Obligations.MessageDoesWhatItsOperationsDo : Prop :=
  ∀ (i : Instr) (s : State), isOperation i = false →
    ∃ r, runProgram (expand i) s = .next r ∧ exec i s = .next { r.final with tx := r.tx }

/-! ### System -/

/-- R143. -/
def Obligations.NopChangesNothing : Prop :=
  ∀ s : State,
    (∃ d n, exec .nop s = .next { s with tx := [], dout := d, draws := n }) ∧
    decodeWord 0x000000 = .ok .nop ∧
    ∀ opd : Half, opd ≠ 0 → RaisesIll s (stepOn ((0x00 : Byte) ++ opd) s)

/-- R33: the sixteen numbers and what each reads. A result register that holds an unspecified value is read as the
value the model keeps there (U2, log 3). -/
def Obligations.RdReturnsTheNumberedRegister : Prop :=
  ∀ s : State,
    (∀ (n : BitVec 4) (r : StatusReg),
      [StatusReg.acc, .key, .flen, .dstat, .res, .alarm0, .alarm1, .alarm2, .calcReg, .recvReg, .ckv, .aerr, .estat,
        .rstat, .rlen, .flt][n.toNat]? = some r → decodeWord ((0x01000 : BitVec 20) ++ n) = .ok (.rd r)) ∧
    (∀ r : StatusReg, ∃ m, exec (.rd r) s = .next { s with
      tx := []
      dout := match r with
        | .acc => BitVec.ofNat 16 s.acc.toNat
        | .key => 0x00AA
        | .flen => BitVec.ofNat 16 s.flen.toNat
        | .dstat => match s.dstat with | .none => 0 | .ok => 1 | .lengthErr => 2 | .framingErr => 3
        | .res => s.res
        | .alarm0 => BitVec.ofNat 16 s.alarm0.toNat
        | .alarm1 => BitVec.ofNat 16 s.alarm1.toNat
        | .alarm2 => BitVec.ofNat 16 s.alarm2.toNat
        | .calcReg => BitVec.ofNat 16 s.calcReg.toNat
        | .recvReg => BitVec.ofNat 16 s.recvReg.toNat
        | .ckv => if s.ckv = true then 1 else 0
        | .aerr => if s.aerr = true then 1 else 0
        | .estat => match s.estat with | .idle => 0 | .opened => 1
        | .rstat => match s.rstat with | .idle => 0 | .recv => 1 | .done => 2 | .timeout => 3
        | .rlen => s.rlen
        | .flt => BitVec.ofNat 16 s.flt.toNat
      draws := m }) ∧
    ∀ opd : Half, opd.extractLsb' 4 12 ≠ 0 → RaisesIll s (stepOn ((0x01 : Byte) ++ opd) s)

/-- R145. That the host's further words stay presented is the model's choice (log 1, log 4). -/
def Obligations.RstRestoresTheResetState : Prop :=
  ∀ s : State,
    (∃ t, exec .rst s = .next t ∧ t.acc = 0 ∧ t.flen = 0 ∧ t.dstat = .none ∧ t.estat = .idle ∧
      t.rstat = .idle ∧ t.rlen = 0 ∧ t.flt = 0 ∧ t.tx = [] ∧ t.presented = s.presented) ∧
    decodeWord 0x0F0000 = .ok .rst ∧
    ∀ opd : Half, opd ≠ 0 → RaisesIll s (stepOn ((0x0F : Byte) ++ opd) s)

/-! ### Checksum Unit -/

/-- R80. -/
def Obligations.BccClrClearsTheAccumulator : Prop :=
  ∀ s : State,
    (∃ d n, exec .bccClr s = .next { s with acc := 0, tx := [], dout := d, draws := n }) ∧
    decodeWord 0x100000 = .ok .bccClr ∧
    ∀ opd : Half, opd ≠ 0 → RaisesIll s (stepOn ((0x10 : Byte) ++ opd) s)

/-- R81. -/
def Obligations.BccAbsFoldsOneByteIn : Prop :=
  ∀ (b : Byte) (s : State),
    (∃ d n, exec (.bccAbs b) s = .next { s with acc := s.acc ^^^ b, tx := [], dout := d, draws := n }) ∧
    decodeWord ((0x1100 : Half) ++ b) = .ok (.bccAbs b) ∧
    ∀ opd : Half, opd.extractLsb' 8 8 ≠ 0 → RaisesIll s (stepOn ((0x11 : Byte) ++ opd) s)

/-- R82, R114: the sequence leaves the checksum in `ACC`, the read returns it, and nothing else changes. -/
def Obligations.ChecksumSequenceComputesTheFold : Prop :=
  ∀ (bytes : List Byte) (s : State),
    ∃ r d n, runProgram (checksumProc bytes) s = .next r ∧
      r.final = { s with acc := bytes.foldl (· ^^^ ·) 0, tx := [], dout := d, draws := n } ∧
      r.douts.getLast? = some (BitVec.ofNat 16 (bytes.foldl (· ^^^ ·) 0).toNat) ∧ r.tx = []

/-- R16: at every moment of a run `ACC` is the fold of the bytes absorbed since the last clear or reset, whatever
else the run does. -/
def Obligations.AccumulatorHoldsTheFoldSinceTheClear : Prop :=
  ∀ (is : List Instr) (sofar : List Byte) (s : State) (r : Run),
    s.acc = checksum sofar → runProgram is s = .next r → r.final.acc = checksum (absorbed sofar is)

/-- R83, R89: the laws of the fold, and what a cipher of any key does to it. -/
def Obligations.ChecksumIgnoresOrderAndSplits : Prop :=
  (∀ s t : List Byte, s.Perm t → checksum s = checksum t) ∧
  (∀ s t : List Byte, checksum (s ++ t) = checksum s ^^^ checksum t) ∧
  (∀ (k : Byte) (s : List Byte),
    (s.length % 2 = 0 → checksum (cipher k s) = checksum s) ∧
    (s.length % 2 = 1 → checksum (cipher k s) = checksum s ^^^ k))

/-! ### Cipher Unit -/

/-- R86. -/
def Obligations.XcByteAnswersTheTransformedByte : Prop :=
  ∀ (b : Byte) (s : State),
    (∃ n, exec (.xcByte b) s =
      .next { s with tx := [], dout := BitVec.ofNat 16 (b ^^^ 0xAA).toNat, draws := n }) ∧
    decodeWord ((0x2000 : Half) ++ b) = .ok (.xcByte b) ∧
    ∀ opd : Half, opd.extractLsb' 8 8 ≠ 0 → RaisesIll s (stepOn ((0x20 : Byte) ++ opd) s)

/-- R115, R85, R87: the sequence enciphers, twice is the identity for every key, and no state changes. -/
def Obligations.CipherSequenceEnciphersAndIsInvolutive : Prop :=
  (∀ (bytes : List Byte) (s : State),
    ∃ r, runProgram (cipherProc bytes) s = .next r ∧
      r.douts.map (fun v => v.extractLsb' 0 8) = bytes.map (fun b => b ^^^ 0xAA) ∧ r.tx = [] ∧
      { r.final with tx := s.tx, dout := s.dout, draws := s.draws } = s) ∧
  (∀ (k : Byte) (bytes : List Byte), cipher k (cipher k bytes) = bytes)

/-! ### Encoder -/

/-- R91. -/
def Obligations.FeOpenEmitsDelimiterAndOpcode : Prop :=
  ∀ (b : Byte) (s : State),
    (s.estat = .idle → ∃ d n, exec (.feOpen b) s =
      .next { s with estat := .opened, tx := [0x7B, b], dout := d, draws := n }) ∧
    (s.estat = .opened → ∃ d n, exec (.feOpen b) s =
      .next { s with flt := s.flt ||| 0b0010, tx := [], dout := d, draws := n }) ∧
    decodeWord ((0x3000 : Half) ++ b) = .ok (.feOpen b) ∧
    ∀ opd : Half, opd.extractLsb' 8 8 ≠ 0 → RaisesIll s (stepOn ((0x30 : Byte) ++ opd) s)

/-- R92. -/
def Obligations.FeArg8EmitsOneByte : Prop :=
  ∀ (b : Byte) (s : State),
    (s.estat = .opened → ∃ d n, exec (.feArg8 b) s = .next { s with tx := [b], dout := d, draws := n }) ∧
    (s.estat = .idle → ∃ d n, exec (.feArg8 b) s =
      .next { s with flt := s.flt ||| 0b0010, tx := [], dout := d, draws := n }) ∧
    decodeWord ((0x3100 : Half) ++ b) = .ok (.feArg8 b) ∧
    ∀ opd : Half, opd.extractLsb' 8 8 ≠ 0 → RaisesIll s (stepOn ((0x31 : Byte) ++ opd) s)

/-- R93: high byte first, and the same as two `FE.ARG8`. -/
def Obligations.FeArg16EmitsBigEndian : Prop :=
  ∀ (v : Half) (s : State),
    (s.estat = .opened → ∃ d n, exec (.feArg16 v) s = .next { s with
      tx := [BitVec.ofNat 8 (v.toNat / 256), BitVec.ofNat 8 v.toNat], dout := d, draws := n }) ∧
    (s.estat = .idle → ∃ d n, exec (.feArg16 v) s =
      .next { s with flt := s.flt ||| 0b0010, tx := [], dout := d, draws := n }) ∧
    (∃ r t, runProgram [.feArg8 (BitVec.ofNat 8 (v.toNat / 256)), .feArg8 (BitVec.ofNat 8 v.toNat)] s = .next r ∧
      exec (.feArg16 v) s = .next t ∧ r.tx = t.tx ∧
      { r.final with tx := t.tx, dout := t.dout, draws := t.draws } = t) ∧
    decodeWord ((0x32 : Byte) ++ v) = .ok (.feArg16 v)

/-- R94. -/
def Obligations.FeCloseEmitsTheEndDelimiter : Prop :=
  ∀ s : State,
    (s.estat = .idle → ∀ b : Byte, ∃ r, runProgram [.feOpen b, .feClose] s = .next r ∧ r.tx = [0x7B, b, 0x7D]) ∧
    (s.estat = .opened → ∃ d n, exec .feClose s =
      .next { s with estat := .idle, tx := [0x7D], dout := d, draws := n }) ∧
    (s.estat = .idle → ∃ d n, exec .feClose s =
      .next { s with flt := s.flt ||| 0b0010, tx := [], dout := d, draws := n }) ∧
    decodeWord 0x330000 = .ok .feClose ∧
    ∀ opd : Half, opd ≠ 0 → RaisesIll s (stepOn ((0x33 : Byte) ++ opd) s)

/-- R95, R116: the sequence emits `7B opcode args 7D`, ends idle, and raises nothing. -/
def Obligations.EncodeSequenceEmitsTheCommand : Prop :=
  ∀ (opcode : Byte) (args : List Byte) (s : State), s.estat = .idle →
    ∃ r, runProgram (encodeProc opcode args) s = .next r ∧
      r.tx = [0x7B, opcode] ++ args ++ [0x7D] ∧
      { r.final with tx := s.tx, dout := s.dout, draws := s.draws } = s

/-- R60, R95: only the encoder emits, and nothing else but a reset touches `ESTAT`. -/
def Obligations.OnlyTheEncoderEmits : Prop :=
  ∀ (i : Instr) (s : State), emits i = false →
    ∃ t, exec i s = .next t ∧ t.tx = [] ∧ (i ≠ .rst → t.estat = s.estat)

/-- R70, R97, R98: the four Commands, byte by byte, from an idle encoder; the wire rows' reading is log 7. -/
def Obligations.CommandMessagesAreSentByteForByte : Prop :=
  ∀ (l u f : Half) (s : State), s.estat = .idle →
    (∃ d n, exec (.cmdAdjust l u f) s = .next { s with
      tx := [0x7B, 0x01, l.extractLsb' 8 8, l.extractLsb' 0 8, u.extractLsb' 8 8, u.extractLsb' 0 8,
        f.extractLsb' 8 8, f.extractLsb' 0 8, 0x7D], dout := d, draws := n }) ∧
    (∃ d n, exec .cmdStream s = .next { s with tx := [0x7B, 0x02, 0x7D], dout := d, draws := n }) ∧
    (∃ d n, exec .cmdXstream s = .next { s with tx := [0x7B, 0x03, 0x7D], dout := d, draws := n }) ∧
    (∃ d n, exec .cmdFile s = .next { s with tx := [0x7B, 0x04, 0x7D], dout := d, draws := n })

/-! ### Decoder -/

/-- R100. -/
def Obligations.FdClrEmptiesTheFrameBuffer : Prop :=
  ∀ s : State,
    (∃ d n, exec .fdClr s = .next { s with flen := 0, tx := [], dout := d, draws := n }) ∧
    (∃ r, runProgram [.fdClr, .fdDec] s = .next r ∧ r.final.dstat = .lengthErr) ∧
    decodeWord 0x400000 = .ok .fdClr ∧
    ∀ opd : Half, opd ≠ 0 → RaisesIll s (stepOn ((0x40 : Byte) ++ opd) s)

/-- R101: below eight the byte lands at index `FLEN`; from eight on it is dropped and `FLEN` is 9. -/
def Obligations.FdPushAppendsOrSaturates : Prop :=
  ∀ (b : Byte) (s : State),
    (s.flen < 8 → ∃ (fb : FrameImage) (d : Half) (n : Nat),
      exec (.fdPush b) s = .next { s with fb := fb, flen := s.flen + 1, tx := [], dout := d, draws := n } ∧
      fb.bytes = s.fb.bytes.set s.flen.toNat b) ∧
    (8 ≤ s.flen → ∃ d n, exec (.fdPush b) s = .next { s with flen := 9, tx := [], dout := d, draws := n }) ∧
    decodeWord ((0x4100 : Half) ++ b) = .ok (.fdPush b) ∧
    ∀ opd : Half, opd.extractLsb' 8 8 ≠ 0 → RaisesIll s (stepOn ((0x41 : Byte) ++ opd) s)

/-- R103, R107: the plain decode, by length, by delimiters, and its result. The text test is the default of an open
parameter (R6, log 8), and `45 52 52` is "ERR" by the spec's general knowledge (R77, log 9). -/
def Obligations.FdDecDecodesThePlainFrame : Prop :=
  ∀ s : State,
    (s.flen ≠ 8 → ∃ (q : State) (d : Half) (n : Nat), exec .fdDec s =
      .next { s.withResultsOf q with dstat := .lengthErr, tx := [], dout := d, draws := n }) ∧
    (s.flen = 8 → s.fb.b0 ≠ 0x7B ∨ s.fb.b7 ≠ 0x7D → ∃ (q : State) (d : Half) (n : Nat), exec .fdDec s =
      .next { s.withResultsOf q with dstat := .framingErr, tx := [], dout := d, draws := n }) ∧
    (s.flen = 8 → s.fb.b0 = 0x7B → s.fb.b7 = 0x7D → ∃ d n, exec .fdDec s = .next { s with
      dstat := .ok
      res := BitVec.ofNat 16 (256 * s.fb.b1.toNat + s.fb.b2.toNat)
      alarm0 := if s.fb.b3 ≤ 0x7F ∧ s.fb.b4 ≤ 0x7F ∧ s.fb.b5 ≤ 0x7F then s.fb.b3 else 0x45
      alarm1 := if s.fb.b3 ≤ 0x7F ∧ s.fb.b4 ≤ 0x7F ∧ s.fb.b5 ≤ 0x7F then s.fb.b4 else 0x52
      alarm2 := if s.fb.b3 ≤ 0x7F ∧ s.fb.b4 ≤ 0x7F ∧ s.fb.b5 ≤ 0x7F then s.fb.b5 else 0x52
      aerr := if s.fb.b3 ≤ 0x7F ∧ s.fb.b4 ≤ 0x7F ∧ s.fb.b5 ≤ 0x7F then false else true
      calcReg := s.fb.b0 ^^^ s.fb.b1 ^^^ s.fb.b2 ^^^ s.fb.b3 ^^^ s.fb.b4 ^^^ s.fb.b5
      recvReg := s.fb.b6
      ckv := if s.fb.b0 ^^^ s.fb.b1 ^^^ s.fb.b2 ^^^ s.fb.b3 ^^^ s.fb.b4 ^^^ s.fb.b5 = s.fb.b6 then true else false
      tx := [], dout := d, draws := n }) ∧
    decodeWord 0x420000 = .ok .fdDec ∧
    ∀ opd : Half, opd ≠ 0 → RaisesIll s (stepOn ((0x42 : Byte) ++ opd) s)

/-- R105: the encrypted decode works on the deciphered bytes with both delimiters restored, `FB` stays enciphered,
and the delimiters on the wire are not compared with anything. The text test and "ERR" as in the plain decode
(log 8, log 9). -/
def Obligations.FdDecxDecodesTheDecipheredFrame : Prop :=
  ∀ s : State,
    (s.flen ≠ 8 → ∃ (q : State) (d : Half) (n : Nat), exec .fdDecx s =
      .next { s.withResultsOf q with dstat := .lengthErr, tx := [], dout := d, draws := n }) ∧
    (s.flen = 8 → ∀ w1 w2 w3 w4 w5 w6 : Byte, w1 = s.fb.b1 ^^^ 0xAA → w2 = s.fb.b2 ^^^ 0xAA →
      w3 = s.fb.b3 ^^^ 0xAA → w4 = s.fb.b4 ^^^ 0xAA → w5 = s.fb.b5 ^^^ 0xAA → w6 = s.fb.b6 ^^^ 0xAA →
      ∃ d n, exec .fdDecx s = .next { s with
        dstat := .ok
        res := BitVec.ofNat 16 (256 * w1.toNat + w2.toNat)
        alarm0 := if w3 ≤ 0x7F ∧ w4 ≤ 0x7F ∧ w5 ≤ 0x7F then w3 else 0x45
        alarm1 := if w3 ≤ 0x7F ∧ w4 ≤ 0x7F ∧ w5 ≤ 0x7F then w4 else 0x52
        alarm2 := if w3 ≤ 0x7F ∧ w4 ≤ 0x7F ∧ w5 ≤ 0x7F then w5 else 0x52
        aerr := if w3 ≤ 0x7F ∧ w4 ≤ 0x7F ∧ w5 ≤ 0x7F then false else true
        calcReg := 0x7B ^^^ w1 ^^^ w2 ^^^ w3 ^^^ w4 ^^^ w5
        recvReg := w6
        ckv := if 0x7B ^^^ w1 ^^^ w2 ^^^ w3 ^^^ w4 ^^^ w5 = w6 then true else false
        tx := [], dout := d, draws := n }) ∧
    decodeWord 0x430000 = .ok .fdDecx ∧
    ∀ opd : Half, opd ≠ 0 → RaisesIll s (stepOn ((0x43 : Byte) ++ opd) s)

/-- R110, for every key and every `TEXT_VALID` (R5, U5). -/
def Obligations.EncryptedDecodeNeverReportsFraming : Prop :=
  ∀ (p : Config.Params) (s : State),
    (s.flen = 8 → (fdDecxWith p s).dstat = .ok) ∧ (s.flen ≠ 8 → (fdDecxWith p s).dstat = .lengthErr)

/-- R111, for every key and every `TEXT_VALID`: deciphering a well-formed frame's encipherment gives the same
status and results as decoding the frame, in the document's functions and in the block. -/
def Obligations.EncryptedDecodeOfCipherEqualsPlainDecode : Prop :=
  ∀ (p : Config.Params) (w : FrameImage) (s : State), w.delimited = true →
    decodeEncryptedFrame p (cipher p.key w.bytes) = decodeFrame p w.bytes ∧
    let t := fdDecWith p { s with fb := w, flen := 8 }
    let x := fdDecxWith p { s with fb := frameMap (fun b => b ^^^ p.key) w, flen := 8 }
    x.dstat = t.dstat ∧ x.res = t.res ∧ x.alarm0 = t.alarm0 ∧ x.alarm1 = t.alarm1 ∧ x.alarm2 = t.alarm2 ∧
      x.aerr = t.aerr ∧ x.calcReg = t.calcReg ∧ x.recvReg = t.recvReg ∧ x.ckv = t.ckv

/-- R109: a wrong checksum byte leaves the decode `OK`, and the reading, the frame and the faults as with any other
checksum byte. -/
def Obligations.ChecksumMismatchIsAResultNotAnError : Prop :=
  ∀ (s : State) (c : Byte), s.flen = 8 → s.fb.b0 = 0x7B → s.fb.b7 = 0x7D →
    s.fb.b6 ≠ s.fb.b0 ^^^ s.fb.b1 ^^^ s.fb.b2 ^^^ s.fb.b3 ^^^ s.fb.b4 ^^^ s.fb.b5 →
    ∃ t x, exec .fdDec s = .next t ∧ exec .fdDec { s with fb := { s.fb with b6 := c } } = .next x ∧
      t.dstat = .ok ∧ t.ckv = false ∧ t.flt = s.flt ∧ t.tx = [] ∧ t.fb = s.fb ∧ t.flen = s.flen ∧
      t.res = x.res ∧ t.alarm0 = x.alarm0 ∧ t.alarm1 = x.alarm1 ∧ t.alarm2 = x.alarm2

/-- R112: a sender that sends the checksum of the enciphered bytes unenciphered makes the decoder get
`CALC = c`, `RECV = c xor KEY` and `CKV = 0` for every frame. -/
def Obligations.UnencipheredChecksumByteMismatches : Prop :=
  ∀ (c : Byte) (s : State), s.flen = 8 → s.fb.b0 = 0x7B ^^^ 0xAA →
    c = s.fb.b0 ^^^ s.fb.b1 ^^^ s.fb.b2 ^^^ s.fb.b3 ^^^ s.fb.b4 ^^^ s.fb.b5 → s.fb.b6 = c →
    ∃ t, exec .fdDecx s = .next t ∧ t.dstat = .ok ∧ t.calcReg = c ∧ t.recvReg = c ^^^ 0xAA ∧ t.ckv = false

/-- U5, R106: which alarm bytes are text decides the alarm registers and `AERR` alone. -/
def Obligations.TextValidityDecidesTheAlarmFieldAlone : Prop :=
  ∀ (p q : Config.Params) (s : State), p.key = q.key →
    { fdDecWith p s with alarm0 := 0, alarm1 := 0, alarm2 := 0, aerr := false } =
      { fdDecWith q s with alarm0 := 0, alarm1 := 0, alarm2 := 0, aerr := false } ∧
    { fdDecxWith p s with alarm0 := 0, alarm1 := 0, alarm2 := 0, aerr := false } =
      { fdDecxWith q s with alarm0 := 0, alarm1 := 0, alarm2 := 0, aerr := false }

/-- R118: for every byte sequence, of any length, the result of the procedure, reads included, is that of the document's
`decode_frame`. -/
def Obligations.DecodeSequenceEqualsDecodeFrame : Prop :=
  ∀ (raw : List Byte) (s : State),
    ∃ r, (decodeProc raw).run s = .next r ∧ r.value = decodeFrame Config.params raw ∧
      decodeOutcome r.final = some (decodeFrame Config.params raw) ∧ r.tx = [] ∧
      r.final.acc = s.acc ∧ r.final.flt = s.flt ∧ r.final.estat = s.estat ∧ r.final.rstat = s.rstat ∧
      r.final.rlen = s.rlen ∧ r.final.rbuf = s.rbuf

/-- R119: as R118, with the encrypted decode. -/
def Obligations.EncryptedDecodeSequenceEqualsItsFunction : Prop :=
  ∀ (raw : List Byte) (s : State),
    ∃ r, (decodeEncryptedProc raw).run s = .next r ∧ r.value = decodeEncryptedFrame Config.params raw ∧
      decodeOutcome r.final = some (decodeEncryptedFrame Config.params raw) ∧ r.tx = [] ∧
      r.final.acc = s.acc ∧ r.final.flt = s.flt ∧ r.final.estat = s.estat ∧ r.final.rstat = s.rstat ∧
      r.final.rlen = s.rlen ∧ r.final.rbuf = s.rbuf

/-- R66, R67, R118, R119 in the model's reading of the wire rows (log 7): a received frame is in `FB` and decoded. -/
def Obligations.ReceivedFramesAreBufferedAndDecoded : Prop :=
  ∀ (raw : FrameImage) (s : State),
    (∃ (q : State) (d : Half) (n : Nat), exec (.wireFrame raw) s =
        .next { s.withResultsOf q with fb := raw, flen := 8, dstat := q.dstat, tx := [], dout := d, draws := n } ∧
      decodeOutcome q = some (decodeFrame Config.params raw.bytes)) ∧
    (∃ (q : State) (d : Half) (n : Nat), exec (.wireEncryptedFrame raw) s =
        .next { s.withResultsOf q with fb := raw, flen := 8, dstat := q.dstat, tx := [], dout := d, draws := n } ∧
      decodeOutcome q = some (decodeEncryptedFrame Config.params raw.bytes))

/-- R172, R34: nothing but a decode or a reset changes the status of the last decode and its results. -/
def Obligations.ResultsChangeOnlyByDecodeOrReset : Prop :=
  ∀ (i : Instr) (s : State), writesResults i = false →
    ∃ t, exec i s = .next t ∧ t.dstat = s.dstat ∧ t = t.withResultsOf s

/-! ### Receiver -/

/-- R131: admitted in every state. -/
def Obligations.RxStartBeginsAnEmptyReception : Prop :=
  ∀ s : State,
    (∃ d n, exec .rxStart s = .next { s with rlen := 0, rstat := .recv, tx := [], dout := d, draws := n }) ∧
    decodeWord 0x500000 = .ok .rxStart ∧
    ∀ opd : Half, opd ≠ 0 → RaisesIll s (stepOn ((0x50 : Byte) ++ opd) s)

/-- R132, R133, R134, for every capacity: the byte is stored at `RLEN` and every other byte stays; only at the end of an
append, and only when the buffer then ends in `FF FF`, the two are trimmed and the reception is done. `exec` is the
operation at the default capacity (log 8). -/
def Obligations.RxPutAppendsAndTestsTheSentinel : Prop :=
  ∀ (b : Byte) (last : Bool) (s : State),
    exec (.rxPut b last) s = .next (rxPutWith Config.params b last s) ∧
    (∀ p : Config.Params,
      (s.rstat = .recv → s.rlen < p.bufCap →
        ¬ (last = true ∧ 1 ≤ s.rlen.toNat ∧ s.rbufByte (s.rlen.toNat - 1) = 0xFF ∧ b = 0xFF) →
        ∃ (m : Memory) (d : Half) (n : Nat), rxPutWith p b last s =
            { s with rbuf := m, rlen := s.rlen + 1, tx := [], dout := d, draws := n } ∧
          ∀ a, ({ s with rbuf := m } : State).rbufByte a = if a = s.rlen.toNat then b else s.rbufByte a) ∧
      (s.rstat = .recv → s.rlen < p.bufCap →
        last = true ∧ 1 ≤ s.rlen.toNat ∧ s.rbufByte (s.rlen.toNat - 1) = 0xFF ∧ b = 0xFF →
        ∃ (m : Memory) (d : Half) (n : Nat), rxPutWith p b last s =
            { s with rbuf := m, rlen := s.rlen - 1, rstat := .done, tx := [], dout := d, draws := n } ∧
          ∀ a, ({ s with rbuf := m } : State).rbufByte a = if a = s.rlen.toNat then b else s.rbufByte a) ∧
      (s.rstat ≠ .recv → ∃ d n, rxPutWith p b last s =
        { s with flt := s.flt ||| 0b0010, tx := [], dout := d, draws := n }) ∧
      (s.rstat = .recv → s.rlen = p.bufCap → ∃ d n, rxPutWith p b last s =
        { s with flt := s.flt ||| 0b0100, tx := [], dout := d, draws := n })) ∧
    decodeWord ((0x5100 : Half) ++ b) = .ok (.rxPut b false) ∧
    decodeWord ((0x5101 : Half) ++ b) = .ok (.rxPut b true) ∧
    ∀ opd : Half, opd.extractLsb' 9 7 ≠ 0 → RaisesIll s (stepOn ((0x51 : Byte) ++ opd) s)

/-- R137, for every capacity: a full buffer takes no byte and the reception goes on. -/
def Obligations.FullBufferDropsTheByte : Prop :=
  ∀ (p : Config.Params) (b : Byte) (last : Bool) (s : State), s.rstat = .recv → s.rlen = p.bufCap →
    ∃ d n, rxPutWith p b last s = { s with flt := s.flt ||| 0b0100, tx := [], dout := d, draws := n }

/-- R138: the deadline ends a running reception, keeps its bytes, and does nothing otherwise. -/
def Obligations.RxTmoEndsARunningReception : Prop :=
  ∀ s : State,
    (s.rstat = .recv → ∃ d n, exec .rxTmo s =
      .next { s with rstat := .timeout, tx := [], dout := d, draws := n }) ∧
    (s.rstat ≠ .recv → ∃ d n, exec .rxTmo s = .next { s with tx := [], dout := d, draws := n }) ∧
    decodeWord 0x520000 = .ok .rxTmo ∧
    ∀ opd : Half, opd ≠ 0 → RaisesIll s (stepOn ((0x52 : Byte) ++ opd) s)

/-- R139: a byte below `RLEN` is answered, an address from `RLEN` on raises ADR, and nothing is consumed; before the
first reception every address faults. -/
def Obligations.RxRdbAnswersAReceivedByte : Prop :=
  ∀ (a : Half) (s : State),
    (a < s.rlen → ∃ n, exec (.rxRdb a) s =
      .next { s with tx := [], dout := BitVec.ofNat 16 (s.rbufByte a.toNat).toNat, draws := n }) ∧
    (s.rlen ≤ a → ∃ d n, exec (.rxRdb a) s =
      .next { s with flt := s.flt ||| 0b1000, tx := [], dout := d, draws := n }) ∧
    (Inv s → s.rstat = .idle → s.rlen ≤ a) ∧
    decodeWord ((0x53 : Byte) ++ a) = .ok (.rxRdb a)

/-- R34, R48: nothing but `RX.PUT` and a reset changes a byte of the receive buffer. -/
def Obligations.OnlyRxPutStoresReceivedBytes : Prop :=
  ∀ (i : Instr) (s : State), storesReceived i = false →
    ∃ t, exec i s = .next t ∧ ∀ a, t.rbufByte a = s.rbufByte a

/-- R71, R132, R134 in the model's reading of the wire rows (log 7): the sentinel received as one append ends a
running reception that has room for it, with the payload and its length as before. The room is that of the default
capacity (log 8). -/
def Obligations.SentinelMessageEndsTheReception : Prop :=
  ∀ s : State, s.rstat = .recv → s.rlen < 65534 →
    ∃ (m : Memory) (d : Half) (n : Nat), exec .wireSentinel s =
        .next { s with rbuf := m, rstat := .done, tx := [], dout := d, draws := n } ∧
      ∀ a, a ≠ s.rlen.toNat → a ≠ s.rlen.toNat + 1 → ({ s with rbuf := m } : State).rbufByte a = s.rbufByte a

/-- R120, R130, R140, R142: for every way of cutting the stream into polls, as long as the bytes fit the buffer of the
default capacity (log 8), the result of the procedure, reads included, is that of the document's `receive_file`, and no
fault is raised. -/
def Obligations.ReceiveSequenceEqualsReceiveFile : Prop :=
  ∀ (polls : List (List Byte)) (s : State), polls.flatten.length ≤ 65535 →
    ∃ r, (receiveProc polls).run s = .next r ∧ r.value = receiveFile polls ∧
      fileResult r.final = receiveFile polls ∧ r.tx = [] ∧ r.final.flt = s.flt ∧ r.final.acc = s.acc ∧
      r.final.fb = s.fb ∧ r.final.flen = s.flen ∧ r.final.dstat = s.dstat ∧ r.final.estat = s.estat

/-- R141: only `RX.START` or reset leaves a reception that has timed out. -/
def Obligations.TimeoutIsLeftOnlyByStartOrReset : Prop :=
  ∀ (i : Instr) (s : State), s.rstat = .timeout → i ≠ .rxStart → i ≠ .rst →
    ∃ t, exec i s = .next t ∧ t.rstat = .timeout ∧ t.rlen = s.rlen

/-! ### Faults -/

/-- R32, R152: a set fault bit stays set until reset. -/
def Obligations.FaultBitsOnlyAccumulate : Prop :=
  ∀ (i : Instr) (s : State), i ≠ .rst → ∃ t, exec i s = .next t ∧ t.flt &&& s.flt = s.flt

/-- R152: an operation that records a new fault does nothing else. -/
def Obligations.FaultingOperationDoesNothingElse : Prop :=
  ∀ (i : Instr) (s t : State), isOperation i = true → i ≠ .rst → exec i s = .next t → t.flt ≠ s.flt →
    ∃ d n, t = { s with flt := t.flt, tx := [], dout := d, draws := n }

/-- R32: no operation's behaviour depends on `FLT`, the reading of `FLT` apart. -/
def Obligations.BehaviourDoesNotDependOnFaults : Prop :=
  ∀ (i : Instr) (s : State) (f : BitVec 4), i ≠ .rd .flt →
    ∃ t g, exec i s = .next t ∧ exec i { s with flt := f } = .next { t with flt := g }

/-- R150: the operations that raise no fault in any state. -/
def Obligations.OperationsThatNeverFail : Prop :=
  ∀ (s : State) (i : Instr),
    i ∈ [Instr.bccClr, .fdClr, .fdDec, .fdDecx, .rxStart, .rxTmo, .nop] ∨ (∃ b, i = .bccAbs b) ∨
      (∃ b, i = .xcByte b) ∨ (∃ b, i = .fdPush b) ∨ (∃ r, i = .rd r) →
    (∃ t, exec i s = .next t ∧ t.flt = s.flt) ∧ (∃ t, exec .rst s = .next t ∧ t.flt = 0)

/-! ### The Session Controller (log 13) -/

/-- R121, R122, R123, R127: starting a session hands the mode's Command to the open Transport Port. R121, R129: a failed
open and a failed write are fatal: the session is over, nothing was given to the block for it, and no later event
changes anything. -/
def Obligations.SessionStartSendsTheCommand : Prop :=
  (∀ x : Session, x.phase = .idle → x.portOpen = true → x.block.estat = .idle →
    ∃ y, sessionTurn .start x = y ∧ y.phase = .commandSent ∧ y.reports = x.reports ∧ y.mode = x.mode ∧
      y.block.estat = .idle ∧ y.block.flt = x.block.flt ∧
      y.written = x.written ++ match x.mode with
        | .adjust l u f => [0x7B, 0x01, l.extractLsb' 8 8, l.extractLsb' 0 8, u.extractLsb' 8 8, u.extractLsb' 0 8,
            f.extractLsb' 8 8, f.extractLsb' 0 8, 0x7D]
        | .stream => [0x7B, 0x02, 0x7D]
        | .encryptedStream => [0x7B, 0x03, 0x7D]
        | .file => [0x7B, 0x04, 0x7D]) ∧
  (∀ (x : Session) (later : List HostEvent), x.phase = .idle → x.portOpen = false →
    sessionRun (.openFailed :: later) x = { x with phase := .exited .connectError } ∧
    sessionTurn .openOk x = { x with portOpen := true }) ∧
  (∀ (x : Session) (later : List HostEvent), x.phase = .commandSent →
    sessionRun (.writeFailed :: later) x = { x with phase := .exited .writeError })

/-- R123, R125: a full read is decoded by the mode's function and its outcome yielded, reading or error, and the loop
goes on. -/
def Obligations.StreamingYieldsEveryDecodedFrame : Prop :=
  ∀ (x : Session) (bytes : List Byte), x.phase = .receiving → bytes.length = 8 →
    x.mode = .stream ∨ x.mode = .encryptedStream →
    ∃ y, sessionTurn (.read bytes) x = y ∧ y.phase = .receiving ∧ y.mode = x.mode ∧ y.written = x.written ∧
      y.reports = x.reports ++
        [match (if x.mode = .stream then decodeFrame Config.params bytes
            else decodeEncryptedFrame Config.params bytes) with
          | .ok frame => Report.parsed frame
          | .error e => Report.malformed e]

/-- R124, R126, R129: in a streaming mode a short, empty or failed read changes nothing, and nothing but the
caller's stop request ends the loop. -/
def Obligations.StreamingEndsOnlyByTheCaller : Prop :=
  ∀ (x : Session) (e : HostEvent), x.phase = .receiving → x.mode = .stream ∨ x.mode = .encryptedStream →
    (e ≠ .stop → (sessionTurn e x).phase = .receiving) ∧
    (∀ bytes, e = .read bytes → bytes.length ≠ 8 → sessionTurn e x = x) ∧
    (e = .readFailed → sessionTurn e x = x) ∧
    (e = .stop → (sessionTurn e x).phase = .exited .stopped)

/-- R127, R128: a mode-4 session yields exactly one result, that of the document's `receive_file` on the polls before
the deadline, and is over, for as many bytes as fit the buffer of the default capacity (log 8). -/
def Obligations.FileSessionYieldsTheReceivedFile : Prop :=
  ∀ (x : Session) (polls : List (List Byte)), x.phase = .commandSent → x.mode = .file →
    polls.flatten.length ≤ 65535 →
    ∃ y, sessionRun (.writeOk :: polls.map .read ++ [.deadline]) x = y ∧ y.phase = .exited .fileReceived ∧
      y.reports = x.reports ++ [.received (receiveFile polls)]
end

