-- ==== Sys2Proof/Laws/State.lean ====
section
/-! SUPPORT. What each shared update of State does to each field: one lemma per field per update. -/

namespace Sys2Proof
namespace Machine

@[simp] theorem State.emitting_acc (s : State) (bytes : List Byte) : (s.emitting bytes).acc = s.acc := rfl
@[simp] theorem State.emitting_fb (s : State) (bytes : List Byte) : (s.emitting bytes).fb = s.fb := rfl
@[simp] theorem State.emitting_flen (s : State) (bytes : List Byte) : (s.emitting bytes).flen = s.flen := rfl
@[simp] theorem State.emitting_dstat (s : State) (bytes : List Byte) : (s.emitting bytes).dstat = s.dstat := rfl
@[simp] theorem State.emitting_res (s : State) (bytes : List Byte) : (s.emitting bytes).res = s.res := rfl
@[simp] theorem State.emitting_alarm0 (s : State) (bytes : List Byte) : (s.emitting bytes).alarm0 = s.alarm0 := rfl
@[simp] theorem State.emitting_alarm1 (s : State) (bytes : List Byte) : (s.emitting bytes).alarm1 = s.alarm1 := rfl
@[simp] theorem State.emitting_alarm2 (s : State) (bytes : List Byte) : (s.emitting bytes).alarm2 = s.alarm2 := rfl
@[simp] theorem State.emitting_aerr (s : State) (bytes : List Byte) : (s.emitting bytes).aerr = s.aerr := rfl
@[simp] theorem State.emitting_calcReg (s : State) (bytes : List Byte) : (s.emitting bytes).calcReg = s.calcReg := rfl
@[simp] theorem State.emitting_recvReg (s : State) (bytes : List Byte) : (s.emitting bytes).recvReg = s.recvReg := rfl
@[simp] theorem State.emitting_ckv (s : State) (bytes : List Byte) : (s.emitting bytes).ckv = s.ckv := rfl
@[simp] theorem State.emitting_estat (s : State) (bytes : List Byte) : (s.emitting bytes).estat = s.estat := rfl
@[simp] theorem State.emitting_rstat (s : State) (bytes : List Byte) : (s.emitting bytes).rstat = s.rstat := rfl
@[simp] theorem State.emitting_rlen (s : State) (bytes : List Byte) : (s.emitting bytes).rlen = s.rlen := rfl
@[simp] theorem State.emitting_rbuf (s : State) (bytes : List Byte) : (s.emitting bytes).rbuf = s.rbuf := rfl
@[simp] theorem State.emitting_flt (s : State) (bytes : List Byte) : (s.emitting bytes).flt = s.flt := rfl
@[simp] theorem State.emitting_tx (s : State) (bytes : List Byte) : (s.emitting bytes).tx = bytes := rfl
@[simp] theorem State.emitting_dout (s : State) (bytes : List Byte) : (s.emitting bytes).dout = Config.freeDout s.draws := rfl
@[simp] theorem State.emitting_presented (s : State) (bytes : List Byte) : (s.emitting bytes).presented = s.presented := rfl
@[simp] theorem State.emitting_draws (s : State) (bytes : List Byte) : (s.emitting bytes).draws = s.draws + 1 := rfl

@[simp] theorem State.silent_acc (s : State) : (s.silent).acc = s.acc := rfl
@[simp] theorem State.silent_fb (s : State) : (s.silent).fb = s.fb := rfl
@[simp] theorem State.silent_flen (s : State) : (s.silent).flen = s.flen := rfl
@[simp] theorem State.silent_dstat (s : State) : (s.silent).dstat = s.dstat := rfl
@[simp] theorem State.silent_res (s : State) : (s.silent).res = s.res := rfl
@[simp] theorem State.silent_alarm0 (s : State) : (s.silent).alarm0 = s.alarm0 := rfl
@[simp] theorem State.silent_alarm1 (s : State) : (s.silent).alarm1 = s.alarm1 := rfl
@[simp] theorem State.silent_alarm2 (s : State) : (s.silent).alarm2 = s.alarm2 := rfl
@[simp] theorem State.silent_aerr (s : State) : (s.silent).aerr = s.aerr := rfl
@[simp] theorem State.silent_calcReg (s : State) : (s.silent).calcReg = s.calcReg := rfl
@[simp] theorem State.silent_recvReg (s : State) : (s.silent).recvReg = s.recvReg := rfl
@[simp] theorem State.silent_ckv (s : State) : (s.silent).ckv = s.ckv := rfl
@[simp] theorem State.silent_estat (s : State) : (s.silent).estat = s.estat := rfl
@[simp] theorem State.silent_rstat (s : State) : (s.silent).rstat = s.rstat := rfl
@[simp] theorem State.silent_rlen (s : State) : (s.silent).rlen = s.rlen := rfl
@[simp] theorem State.silent_rbuf (s : State) : (s.silent).rbuf = s.rbuf := rfl
@[simp] theorem State.silent_flt (s : State) : (s.silent).flt = s.flt := rfl
@[simp] theorem State.silent_tx (s : State) : (s.silent).tx = [] := rfl
@[simp] theorem State.silent_dout (s : State) : (s.silent).dout = Config.freeDout s.draws := rfl
@[simp] theorem State.silent_presented (s : State) : (s.silent).presented = s.presented := rfl
@[simp] theorem State.silent_draws (s : State) : (s.silent).draws = s.draws + 1 := rfl

@[simp] theorem State.answering_acc (s : State) (v : Half) : (s.answering v).acc = s.acc := rfl
@[simp] theorem State.answering_fb (s : State) (v : Half) : (s.answering v).fb = s.fb := rfl
@[simp] theorem State.answering_flen (s : State) (v : Half) : (s.answering v).flen = s.flen := rfl
@[simp] theorem State.answering_dstat (s : State) (v : Half) : (s.answering v).dstat = s.dstat := rfl
@[simp] theorem State.answering_res (s : State) (v : Half) : (s.answering v).res = s.res := rfl
@[simp] theorem State.answering_alarm0 (s : State) (v : Half) : (s.answering v).alarm0 = s.alarm0 := rfl
@[simp] theorem State.answering_alarm1 (s : State) (v : Half) : (s.answering v).alarm1 = s.alarm1 := rfl
@[simp] theorem State.answering_alarm2 (s : State) (v : Half) : (s.answering v).alarm2 = s.alarm2 := rfl
@[simp] theorem State.answering_aerr (s : State) (v : Half) : (s.answering v).aerr = s.aerr := rfl
@[simp] theorem State.answering_calcReg (s : State) (v : Half) : (s.answering v).calcReg = s.calcReg := rfl
@[simp] theorem State.answering_recvReg (s : State) (v : Half) : (s.answering v).recvReg = s.recvReg := rfl
@[simp] theorem State.answering_ckv (s : State) (v : Half) : (s.answering v).ckv = s.ckv := rfl
@[simp] theorem State.answering_estat (s : State) (v : Half) : (s.answering v).estat = s.estat := rfl
@[simp] theorem State.answering_rstat (s : State) (v : Half) : (s.answering v).rstat = s.rstat := rfl
@[simp] theorem State.answering_rlen (s : State) (v : Half) : (s.answering v).rlen = s.rlen := rfl
@[simp] theorem State.answering_rbuf (s : State) (v : Half) : (s.answering v).rbuf = s.rbuf := rfl
@[simp] theorem State.answering_flt (s : State) (v : Half) : (s.answering v).flt = s.flt := rfl
@[simp] theorem State.answering_tx (s : State) (v : Half) : (s.answering v).tx = [] := rfl
@[simp] theorem State.answering_dout (s : State) (v : Half) : (s.answering v).dout = v := rfl
@[simp] theorem State.answering_presented (s : State) (v : Half) : (s.answering v).presented = s.presented := rfl
@[simp] theorem State.answering_draws (s : State) (v : Half) : (s.answering v).draws = s.draws := rfl

@[simp] theorem State.raiseFault_acc (s : State) (f : FaultBit) : (s.raiseFault f).acc = s.acc := rfl
@[simp] theorem State.raiseFault_fb (s : State) (f : FaultBit) : (s.raiseFault f).fb = s.fb := rfl
@[simp] theorem State.raiseFault_flen (s : State) (f : FaultBit) : (s.raiseFault f).flen = s.flen := rfl
@[simp] theorem State.raiseFault_dstat (s : State) (f : FaultBit) : (s.raiseFault f).dstat = s.dstat := rfl
@[simp] theorem State.raiseFault_res (s : State) (f : FaultBit) : (s.raiseFault f).res = s.res := rfl
@[simp] theorem State.raiseFault_alarm0 (s : State) (f : FaultBit) : (s.raiseFault f).alarm0 = s.alarm0 := rfl
@[simp] theorem State.raiseFault_alarm1 (s : State) (f : FaultBit) : (s.raiseFault f).alarm1 = s.alarm1 := rfl
@[simp] theorem State.raiseFault_alarm2 (s : State) (f : FaultBit) : (s.raiseFault f).alarm2 = s.alarm2 := rfl
@[simp] theorem State.raiseFault_aerr (s : State) (f : FaultBit) : (s.raiseFault f).aerr = s.aerr := rfl
@[simp] theorem State.raiseFault_calcReg (s : State) (f : FaultBit) : (s.raiseFault f).calcReg = s.calcReg := rfl
@[simp] theorem State.raiseFault_recvReg (s : State) (f : FaultBit) : (s.raiseFault f).recvReg = s.recvReg := rfl
@[simp] theorem State.raiseFault_ckv (s : State) (f : FaultBit) : (s.raiseFault f).ckv = s.ckv := rfl
@[simp] theorem State.raiseFault_estat (s : State) (f : FaultBit) : (s.raiseFault f).estat = s.estat := rfl
@[simp] theorem State.raiseFault_rstat (s : State) (f : FaultBit) : (s.raiseFault f).rstat = s.rstat := rfl
@[simp] theorem State.raiseFault_rlen (s : State) (f : FaultBit) : (s.raiseFault f).rlen = s.rlen := rfl
@[simp] theorem State.raiseFault_rbuf (s : State) (f : FaultBit) : (s.raiseFault f).rbuf = s.rbuf := rfl
@[simp] theorem State.raiseFault_flt (s : State) (f : FaultBit) : (s.raiseFault f).flt = setFaultBit s.flt f := rfl
@[simp] theorem State.raiseFault_tx (s : State) (f : FaultBit) : (s.raiseFault f).tx = [] := rfl
@[simp] theorem State.raiseFault_dout (s : State) (f : FaultBit) : (s.raiseFault f).dout = Config.freeDout s.draws := rfl
@[simp] theorem State.raiseFault_presented (s : State) (f : FaultBit) : (s.raiseFault f).presented = s.presented := rfl
@[simp] theorem State.raiseFault_draws (s : State) (f : FaultBit) : (s.raiseFault f).draws = s.draws + 1 := rfl

@[simp] theorem State.unspecifyResults_acc (s : State) : (s.unspecifyResults).acc = s.acc := rfl
@[simp] theorem State.unspecifyResults_fb (s : State) : (s.unspecifyResults).fb = s.fb := rfl
@[simp] theorem State.unspecifyResults_flen (s : State) : (s.unspecifyResults).flen = s.flen := rfl
@[simp] theorem State.unspecifyResults_dstat (s : State) : (s.unspecifyResults).dstat = s.dstat := rfl
@[simp] theorem State.unspecifyResults_res (s : State) : (s.unspecifyResults).res = Config.freeRes s.draws := rfl
@[simp] theorem State.unspecifyResults_alarm0 (s : State) : (s.unspecifyResults).alarm0 = Config.freeAlarm0 s.draws := rfl
@[simp] theorem State.unspecifyResults_alarm1 (s : State) : (s.unspecifyResults).alarm1 = Config.freeAlarm1 s.draws := rfl
@[simp] theorem State.unspecifyResults_alarm2 (s : State) : (s.unspecifyResults).alarm2 = Config.freeAlarm2 s.draws := rfl
@[simp] theorem State.unspecifyResults_aerr (s : State) : (s.unspecifyResults).aerr = Config.freeAerr s.draws := rfl
@[simp] theorem State.unspecifyResults_calcReg (s : State) : (s.unspecifyResults).calcReg = Config.freeCalc s.draws := rfl
@[simp] theorem State.unspecifyResults_recvReg (s : State) : (s.unspecifyResults).recvReg = Config.freeRecv s.draws := rfl
@[simp] theorem State.unspecifyResults_ckv (s : State) : (s.unspecifyResults).ckv = Config.freeCkv s.draws := rfl
@[simp] theorem State.unspecifyResults_estat (s : State) : (s.unspecifyResults).estat = s.estat := rfl
@[simp] theorem State.unspecifyResults_rstat (s : State) : (s.unspecifyResults).rstat = s.rstat := rfl
@[simp] theorem State.unspecifyResults_rlen (s : State) : (s.unspecifyResults).rlen = s.rlen := rfl
@[simp] theorem State.unspecifyResults_rbuf (s : State) : (s.unspecifyResults).rbuf = s.rbuf := rfl
@[simp] theorem State.unspecifyResults_flt (s : State) : (s.unspecifyResults).flt = s.flt := rfl
@[simp] theorem State.unspecifyResults_tx (s : State) : (s.unspecifyResults).tx = s.tx := rfl
@[simp] theorem State.unspecifyResults_dout (s : State) : (s.unspecifyResults).dout = s.dout := rfl
@[simp] theorem State.unspecifyResults_presented (s : State) : (s.unspecifyResults).presented = s.presented := rfl
@[simp] theorem State.unspecifyResults_draws (s : State) : (s.unspecifyResults).draws = s.draws := rfl

@[simp] theorem State.append_acc (s : State) (b : Byte) : (s.append b).acc = s.acc := rfl
@[simp] theorem State.append_fb (s : State) (b : Byte) : (s.append b).fb = s.fb := rfl
@[simp] theorem State.append_flen (s : State) (b : Byte) : (s.append b).flen = s.flen := rfl
@[simp] theorem State.append_dstat (s : State) (b : Byte) : (s.append b).dstat = s.dstat := rfl
@[simp] theorem State.append_res (s : State) (b : Byte) : (s.append b).res = s.res := rfl
@[simp] theorem State.append_alarm0 (s : State) (b : Byte) : (s.append b).alarm0 = s.alarm0 := rfl
@[simp] theorem State.append_alarm1 (s : State) (b : Byte) : (s.append b).alarm1 = s.alarm1 := rfl
@[simp] theorem State.append_alarm2 (s : State) (b : Byte) : (s.append b).alarm2 = s.alarm2 := rfl
@[simp] theorem State.append_aerr (s : State) (b : Byte) : (s.append b).aerr = s.aerr := rfl
@[simp] theorem State.append_calcReg (s : State) (b : Byte) : (s.append b).calcReg = s.calcReg := rfl
@[simp] theorem State.append_recvReg (s : State) (b : Byte) : (s.append b).recvReg = s.recvReg := rfl
@[simp] theorem State.append_ckv (s : State) (b : Byte) : (s.append b).ckv = s.ckv := rfl
@[simp] theorem State.append_estat (s : State) (b : Byte) : (s.append b).estat = s.estat := rfl
@[simp] theorem State.append_rstat (s : State) (b : Byte) : (s.append b).rstat = s.rstat := rfl
@[simp] theorem State.append_rlen (s : State) (b : Byte) : (s.append b).rlen = s.rlen + 1 := rfl
@[simp] theorem State.append_rbuf (s : State) (b : Byte) : (s.append b).rbuf = Memory.write s.rbuf s.rlen.toNat b := rfl
@[simp] theorem State.append_flt (s : State) (b : Byte) : (s.append b).flt = s.flt := rfl
@[simp] theorem State.append_tx (s : State) (b : Byte) : (s.append b).tx = s.tx := rfl
@[simp] theorem State.append_dout (s : State) (b : Byte) : (s.append b).dout = s.dout := rfl
@[simp] theorem State.append_presented (s : State) (b : Byte) : (s.append b).presented = s.presented := rfl
@[simp] theorem State.append_draws (s : State) (b : Byte) : (s.append b).draws = s.draws := rfl

@[simp] theorem State.trimSentinel_acc (s : State) : (s.trimSentinel).acc = s.acc := rfl
@[simp] theorem State.trimSentinel_fb (s : State) : (s.trimSentinel).fb = s.fb := rfl
@[simp] theorem State.trimSentinel_flen (s : State) : (s.trimSentinel).flen = s.flen := rfl
@[simp] theorem State.trimSentinel_dstat (s : State) : (s.trimSentinel).dstat = s.dstat := rfl
@[simp] theorem State.trimSentinel_res (s : State) : (s.trimSentinel).res = s.res := rfl
@[simp] theorem State.trimSentinel_alarm0 (s : State) : (s.trimSentinel).alarm0 = s.alarm0 := rfl
@[simp] theorem State.trimSentinel_alarm1 (s : State) : (s.trimSentinel).alarm1 = s.alarm1 := rfl
@[simp] theorem State.trimSentinel_alarm2 (s : State) : (s.trimSentinel).alarm2 = s.alarm2 := rfl
@[simp] theorem State.trimSentinel_aerr (s : State) : (s.trimSentinel).aerr = s.aerr := rfl
@[simp] theorem State.trimSentinel_calcReg (s : State) : (s.trimSentinel).calcReg = s.calcReg := rfl
@[simp] theorem State.trimSentinel_recvReg (s : State) : (s.trimSentinel).recvReg = s.recvReg := rfl
@[simp] theorem State.trimSentinel_ckv (s : State) : (s.trimSentinel).ckv = s.ckv := rfl
@[simp] theorem State.trimSentinel_estat (s : State) : (s.trimSentinel).estat = s.estat := rfl
@[simp] theorem State.trimSentinel_rstat (s : State) : (s.trimSentinel).rstat = RStat.done := rfl
@[simp] theorem State.trimSentinel_rlen (s : State) : (s.trimSentinel).rlen = s.rlen - 2 := rfl
@[simp] theorem State.trimSentinel_rbuf (s : State) : (s.trimSentinel).rbuf = s.rbuf := rfl
@[simp] theorem State.trimSentinel_flt (s : State) : (s.trimSentinel).flt = s.flt := rfl
@[simp] theorem State.trimSentinel_tx (s : State) : (s.trimSentinel).tx = s.tx := rfl
@[simp] theorem State.trimSentinel_dout (s : State) : (s.trimSentinel).dout = s.dout := rfl
@[simp] theorem State.trimSentinel_presented (s : State) : (s.trimSentinel).presented = s.presented := rfl
@[simp] theorem State.trimSentinel_draws (s : State) : (s.trimSentinel).draws = s.draws := rfl

@[simp] theorem State.withResultsOf_acc (s : State) (q : State) : (s.withResultsOf q).acc = s.acc := rfl
@[simp] theorem State.withResultsOf_fb (s : State) (q : State) : (s.withResultsOf q).fb = s.fb := rfl
@[simp] theorem State.withResultsOf_flen (s : State) (q : State) : (s.withResultsOf q).flen = s.flen := rfl
@[simp] theorem State.withResultsOf_dstat (s : State) (q : State) : (s.withResultsOf q).dstat = s.dstat := rfl
@[simp] theorem State.withResultsOf_res (s : State) (q : State) : (s.withResultsOf q).res = q.res := rfl
@[simp] theorem State.withResultsOf_alarm0 (s : State) (q : State) : (s.withResultsOf q).alarm0 = q.alarm0 := rfl
@[simp] theorem State.withResultsOf_alarm1 (s : State) (q : State) : (s.withResultsOf q).alarm1 = q.alarm1 := rfl
@[simp] theorem State.withResultsOf_alarm2 (s : State) (q : State) : (s.withResultsOf q).alarm2 = q.alarm2 := rfl
@[simp] theorem State.withResultsOf_aerr (s : State) (q : State) : (s.withResultsOf q).aerr = q.aerr := rfl
@[simp] theorem State.withResultsOf_calcReg (s : State) (q : State) : (s.withResultsOf q).calcReg = q.calcReg := rfl
@[simp] theorem State.withResultsOf_recvReg (s : State) (q : State) : (s.withResultsOf q).recvReg = q.recvReg := rfl
@[simp] theorem State.withResultsOf_ckv (s : State) (q : State) : (s.withResultsOf q).ckv = q.ckv := rfl
@[simp] theorem State.withResultsOf_estat (s : State) (q : State) : (s.withResultsOf q).estat = s.estat := rfl
@[simp] theorem State.withResultsOf_rstat (s : State) (q : State) : (s.withResultsOf q).rstat = s.rstat := rfl
@[simp] theorem State.withResultsOf_rlen (s : State) (q : State) : (s.withResultsOf q).rlen = s.rlen := rfl
@[simp] theorem State.withResultsOf_rbuf (s : State) (q : State) : (s.withResultsOf q).rbuf = s.rbuf := rfl
@[simp] theorem State.withResultsOf_flt (s : State) (q : State) : (s.withResultsOf q).flt = s.flt := rfl
@[simp] theorem State.withResultsOf_tx (s : State) (q : State) : (s.withResultsOf q).tx = s.tx := rfl
@[simp] theorem State.withResultsOf_dout (s : State) (q : State) : (s.withResultsOf q).dout = s.dout := rfl
@[simp] theorem State.withResultsOf_presented (s : State) (q : State) : (s.withResultsOf q).presented = s.presented := rfl
@[simp] theorem State.withResultsOf_draws (s : State) (q : State) : (s.withResultsOf q).draws = s.draws := rfl

@[simp] theorem State.thenRun_acc (s : State) (op : State → State) : (s.thenRun op).acc = (op s).acc := rfl
@[simp] theorem State.thenRun_fb (s : State) (op : State → State) : (s.thenRun op).fb = (op s).fb := rfl
@[simp] theorem State.thenRun_flen (s : State) (op : State → State) : (s.thenRun op).flen = (op s).flen := rfl
@[simp] theorem State.thenRun_dstat (s : State) (op : State → State) : (s.thenRun op).dstat = (op s).dstat := rfl
@[simp] theorem State.thenRun_res (s : State) (op : State → State) : (s.thenRun op).res = (op s).res := rfl
@[simp] theorem State.thenRun_alarm0 (s : State) (op : State → State) : (s.thenRun op).alarm0 = (op s).alarm0 := rfl
@[simp] theorem State.thenRun_alarm1 (s : State) (op : State → State) : (s.thenRun op).alarm1 = (op s).alarm1 := rfl
@[simp] theorem State.thenRun_alarm2 (s : State) (op : State → State) : (s.thenRun op).alarm2 = (op s).alarm2 := rfl
@[simp] theorem State.thenRun_aerr (s : State) (op : State → State) : (s.thenRun op).aerr = (op s).aerr := rfl
@[simp] theorem State.thenRun_calcReg (s : State) (op : State → State) : (s.thenRun op).calcReg = (op s).calcReg := rfl
@[simp] theorem State.thenRun_recvReg (s : State) (op : State → State) : (s.thenRun op).recvReg = (op s).recvReg := rfl
@[simp] theorem State.thenRun_ckv (s : State) (op : State → State) : (s.thenRun op).ckv = (op s).ckv := rfl
@[simp] theorem State.thenRun_estat (s : State) (op : State → State) : (s.thenRun op).estat = (op s).estat := rfl
@[simp] theorem State.thenRun_rstat (s : State) (op : State → State) : (s.thenRun op).rstat = (op s).rstat := rfl
@[simp] theorem State.thenRun_rlen (s : State) (op : State → State) : (s.thenRun op).rlen = (op s).rlen := rfl
@[simp] theorem State.thenRun_rbuf (s : State) (op : State → State) : (s.thenRun op).rbuf = (op s).rbuf := rfl
@[simp] theorem State.thenRun_flt (s : State) (op : State → State) : (s.thenRun op).flt = (op s).flt := rfl
@[simp] theorem State.thenRun_tx (s : State) (op : State → State) : (s.thenRun op).tx = s.tx ++ (op s).tx := rfl
@[simp] theorem State.thenRun_dout (s : State) (op : State → State) : (s.thenRun op).dout = (op s).dout := rfl
@[simp] theorem State.thenRun_presented (s : State) (op : State → State) : (s.thenRun op).presented = (op s).presented := rfl
@[simp] theorem State.thenRun_draws (s : State) (op : State → State) : (s.thenRun op).draws = (op s).draws := rfl

@[simp] theorem present_acc (p : Presentation) (s : State) : (present p s).acc = s.acc := rfl
@[simp] theorem present_fb (p : Presentation) (s : State) : (present p s).fb = s.fb := rfl
@[simp] theorem present_flen (p : Presentation) (s : State) : (present p s).flen = s.flen := rfl
@[simp] theorem present_dstat (p : Presentation) (s : State) : (present p s).dstat = s.dstat := rfl
@[simp] theorem present_res (p : Presentation) (s : State) : (present p s).res = s.res := rfl
@[simp] theorem present_alarm0 (p : Presentation) (s : State) : (present p s).alarm0 = s.alarm0 := rfl
@[simp] theorem present_alarm1 (p : Presentation) (s : State) : (present p s).alarm1 = s.alarm1 := rfl
@[simp] theorem present_alarm2 (p : Presentation) (s : State) : (present p s).alarm2 = s.alarm2 := rfl
@[simp] theorem present_aerr (p : Presentation) (s : State) : (present p s).aerr = s.aerr := rfl
@[simp] theorem present_calcReg (p : Presentation) (s : State) : (present p s).calcReg = s.calcReg := rfl
@[simp] theorem present_recvReg (p : Presentation) (s : State) : (present p s).recvReg = s.recvReg := rfl
@[simp] theorem present_ckv (p : Presentation) (s : State) : (present p s).ckv = s.ckv := rfl
@[simp] theorem present_estat (p : Presentation) (s : State) : (present p s).estat = s.estat := rfl
@[simp] theorem present_rstat (p : Presentation) (s : State) : (present p s).rstat = s.rstat := rfl
@[simp] theorem present_rlen (p : Presentation) (s : State) : (present p s).rlen = s.rlen := rfl
@[simp] theorem present_rbuf (p : Presentation) (s : State) : (present p s).rbuf = s.rbuf := rfl
@[simp] theorem present_flt (p : Presentation) (s : State) : (present p s).flt = s.flt := rfl
@[simp] theorem present_tx (p : Presentation) (s : State) : (present p s).tx = s.tx := rfl
@[simp] theorem present_dout (p : Presentation) (s : State) : (present p s).dout = s.dout := rfl
@[simp] theorem present_presented (p : Presentation) (s : State) : (present p s).presented = p :: s.presented := rfl
@[simp] theorem present_draws (p : Presentation) (s : State) : (present p s).draws = s.draws := rfl

@[simp] theorem State.atReset_acc (n : Nat) (ps : List Presentation) : (State.atReset n ps).acc = 0 := rfl
@[simp] theorem State.atReset_flen (n : Nat) (ps : List Presentation) : (State.atReset n ps).flen = 0 := rfl
@[simp] theorem State.atReset_dstat (n : Nat) (ps : List Presentation) : (State.atReset n ps).dstat = DStat.none := rfl
@[simp] theorem State.atReset_estat (n : Nat) (ps : List Presentation) : (State.atReset n ps).estat = EStat.idle := rfl
@[simp] theorem State.atReset_rstat (n : Nat) (ps : List Presentation) : (State.atReset n ps).rstat = RStat.idle := rfl
@[simp] theorem State.atReset_rlen (n : Nat) (ps : List Presentation) : (State.atReset n ps).rlen = 0 := rfl
@[simp] theorem State.atReset_rbuf (n : Nat) (ps : List Presentation) : (State.atReset n ps).rbuf = [] := rfl
@[simp] theorem State.atReset_flt (n : Nat) (ps : List Presentation) : (State.atReset n ps).flt = 0 := rfl
@[simp] theorem State.atReset_tx (n : Nat) (ps : List Presentation) : (State.atReset n ps).tx = [] := rfl
@[simp] theorem State.atReset_presented (n : Nat) (ps : List Presentation) : (State.atReset n ps).presented = ps := rfl
@[simp] theorem State.atReset_draws (n : Nat) (ps : List Presentation) : (State.atReset n ps).draws = n + 1 := rfl

end Machine
end Sys2Proof
end

