-- ==== Sys2Proof/Laws/Ops.lean ====
section
/-! SUPPORT. What the shared operations do, said once: RBUF, faults, runs of operations, and the one thing every
meaning does. -/

namespace Sys2Proof
namespace Machine

/-! ### The receive buffer -/

theorem Memory.lookup_write_self (m : Memory) (a : Nat) (b : Byte) :
    Memory.lookup (Memory.write m a b) a = some b := by
  induction m with
  | nil => simp [Memory.write, Memory.lookup]
  | cons c rest ih =>
    obtain ⟨a', b'⟩ := c
    unfold Memory.write
    split
    · simp [Memory.lookup]
    · split
      · simp [Memory.lookup]
      · simp [Memory.lookup, *]

theorem Memory.lookup_write_ne (m : Memory) {a c : Nat} (b : Byte) (h : c ≠ a) :
    Memory.lookup (Memory.write m a b) c = Memory.lookup m c := by
  induction m with
  | nil => simp [Memory.write, Memory.lookup, h.symm]
  | cons d rest ih =>
    obtain ⟨a', b'⟩ := d
    unfold Memory.write
    split
    · simp [Memory.lookup, h.symm]
    · split
      · subst_vars
        simp [Memory.lookup, h.symm]
      · simp [Memory.lookup, ih]

/-- Every address of a written buffer is the written one or was there before. -/
theorem Memory.mem_write {m : Memory} {a : Nat} {b : Byte} {c : Host.Cell}
    (h : c ∈ Memory.write m a b) : c = (a, b) ∨ c ∈ m := by
  induction m with
  | nil => simpa [Memory.write] using h
  | cons d rest ih =>
    obtain ⟨a', b'⟩ := d
    unfold Memory.write at h
    split at h
    · simpa using h
    · split at h
      · rcases List.mem_cons.1 h with h | h
        · exact .inl h
        · exact .inr (List.mem_cons_of_mem _ h)
      · rcases List.mem_cons.1 h with h | h
        · exact .inr (h ▸ List.mem_cons_self)
        · rcases ih h with h | h
          · exact .inl h
          · exact .inr (List.mem_cons_of_mem _ h)

theorem Memory.wf_cons_iff (a : Nat) (b : Byte) (m : Memory) :
    Memory.wf ((a, b) :: m) = true ↔ (∀ c ∈ m.head?, a < c.1) ∧ Memory.wf m = true := by
  cases m with
  | nil => simp [Memory.wf]
  | cons d rest => obtain ⟨a', b'⟩ := d; simp [Memory.wf]

/-- The first address of a written buffer is the written one or was the first before. -/
theorem Memory.head_write (m : Memory) (a : Nat) (b : Byte) :
    (Memory.write m a b).head? = some (a, b) ∨ (Memory.write m a b).head? = m.head? := by
  cases m with
  | nil => simp [Memory.write]
  | cons d rest =>
    obtain ⟨a', b'⟩ := d
    unfold Memory.write
    split
    · simp
    · split <;> simp

/-- A write keeps the canonical form. -/
theorem Memory.wf_write {m : Memory} (a : Nat) (b : Byte) (h : Memory.wf m = true) :
    Memory.wf (Memory.write m a b) = true := by
  induction m with
  | nil => rfl
  | cons d rest ih =>
    obtain ⟨a', b'⟩ := d
    have h' := (Memory.wf_cons_iff a' b' rest).1 h
    unfold Memory.write
    split
    · exact (Memory.wf_cons_iff a b _).2 ⟨by simpa, h⟩
    · split
      · subst_vars
        exact (Memory.wf_cons_iff _ b _).2 h'
      · refine (Memory.wf_cons_iff a' b' _).2 ⟨?_, ih h'.2⟩
        intro c hc
        rcases Memory.head_write rest a b with e | e
        · rw [e] at hc
          simp only [Option.mem_def, Option.some.injEq] at hc
          subst hc
          simp only
          omega
        · rw [e] at hc
          exact h'.1 c hc

/-- The reset buffer is canonical. -/
theorem Memory.wf_reset : Memory.wf State.reset.rbuf = true := rfl

theorem State.rbufByte_append (s : State) (b : Byte) (a : Nat) :
    (s.append b).rbufByte a = if a = s.rlen.toNat then b else s.rbufByte a := by
  unfold State.rbufByte
  split
  · subst_vars
    simp [Memory.lookup_write_self]
  · rename_i h
    simp [Memory.lookup_write_ne _ _ h]

/-- Reading depends on the buffer alone. -/
theorem State.rbufByte_congr {s t : State} (h : t.rbuf = s.rbuf) (a : Nat) :
    t.rbufByte a = s.rbufByte a := by
  unfold State.rbufByte
  rw [h]

/-! ### Faults -/

theorem setFaultBit_keeps (flt : BitVec 4) (f : FaultBit) : setFaultBit flt f &&& flt = flt := by
  cases f <;> revert flt <;> decide

/-! ### Runs of operations -/

@[simp] theorem State.runOps_nil (s : State) : s.runOps [] = { s with tx := [] } := rfl

theorem State.runOps_append (s : State) (ops : List (State → State)) (op : State → State) :
    s.runOps (ops ++ [op]) = (s.runOps ops).thenRun op := by
  simp [State.runOps]

/-- A property that every operation of a run keeps, whatever was emitted, holds after the run. -/
theorem State.runOps_keeps {P : State → Prop} {s : State} {ops : List (State → State)}
    (htx : ∀ (t : State) (bytes : List Byte), P t → P { t with tx := bytes })
    (hops : ∀ op ∈ ops, ∀ t, P t → P (op t)) (hs : P s) : P (s.runOps ops) := by
  suffices h : ∀ t, P t → P (ops.foldl State.thenRun t) from h _ (htx s [] hs)
  clear hs
  induction ops with
  | nil => exact fun t ht => ht
  | cons op ops ih =>
    intro t ht
    refine ih (fun o ho => hops o (List.mem_cons_of_mem _ ho)) _ ?_
    exact htx _ _ (hops op List.mem_cons_self t ht)

/-! ### Meanings -/

/-- The next state of an instruction, as a function: what `exec` answers. -/
def after (i : Instr) (s : State) : State :=
  match i with
  | .nop => nop s
  | .rd r => rdWith Config.params r s
  | .rst => rst s
  | .bccClr => bccClr s
  | .bccAbs b => bccAbs b s
  | .xcByte b => xcByteWith Config.params b s
  | .feOpen b => feOpen b s
  | .feArg8 b => feArg8 b s
  | .feArg16 v => feArg16 v s
  | .feClose => feClose s
  | .fdClr => fdClr s
  | .fdPush b => fdPush b s
  | .fdDec => fdDecWith Config.params s
  | .fdDecx => fdDecxWith Config.params s
  | .rxStart => rxStart s
  | .rxPut b last => rxPutWith Config.params b last s
  | .rxTmo => rxTmo s
  | .rxRdb a => rxRdb a s
  | .wireFrame raw => receiveFrame (fdDecWith Config.params) raw s
  | .wireEncryptedFrame raw => receiveFrame (fdDecxWith Config.params) raw s
  | .cmdAdjust lower upper frequency => sendAdjust lower upper frequency s
  | .cmdStream => sendModeCommand Config.opcStream s
  | .cmdXstream => sendModeCommand Config.opcXstream s
  | .cmdFile => sendModeCommand Config.opcFile s
  | .wireSentinel => s.runOps [rxPutWith Config.params Config.sentinelByte false,
      rxPutWith Config.params Config.sentinelByte true]

/-- Every meaning answers a next state, and it is this one. -/
theorem exec_eq_next (i : Instr) (s : State) : exec i s = .next (after i s) := by
  cases i <;> rfl

/-! ### Steps -/

theorem step_of_decode_ok {s : State} {p : Presentation} {rest : List Presentation} {i : Instr}
    (hp : s.presented = p :: rest) (hd : decode p = .ok i) :
    step s = exec i { s with presented := rest } := by
  simp [step, fetch, hp, hd]

theorem step_of_decode_error {s : State} {p : Presentation} {rest : List Presentation} {r : Reject}
    (hp : s.presented = p :: rest) (hd : decode p = .error r) :
    step s = rejected r { s with presented := rest } := by
  simp [step, fetch, hp, hd]

/-- A message is rejected for one reason only. -/
theorem decodeMessage_error {bytes : List Byte} {r : Reject} (h : decodeMessage bytes = .error r) :
    r = .notAMessage := by
  unfold decodeMessage decodeModeCommand decodeFrameMessage at h
  split at h <;> (repeat' split at h) <;> simp_all

/-- All that a step can do. -/
theorem step_cases {s s' : State} (h : step s = .next s') :
    (s.presented = [] ∧ s' = s.silent) ∨
    (∃ p rest i, s.presented = p :: rest ∧ decode p = .ok i ∧
      s' = after i { s with presented := rest }) ∨
    (∃ w rest r, s.presented = .word w :: rest ∧ decodeWord w = .error r ∧
      s' = ({ s with presented := rest } : State).raiseFault .ill) := by
  cases hp : s.presented with
  | nil =>
    simp only [step, fetch, hp, idle] at h
    exact .inl ⟨rfl, by simpa using h.symm⟩
  | cons p rest =>
    right
    cases hd : decode p with
    | ok i =>
      rw [step_of_decode_ok hp hd, exec_eq_next] at h
      exact .inl ⟨p, rest, i, rfl, hd, by simpa using h.symm⟩
    | error r =>
      right
      rw [step_of_decode_error hp hd] at h
      cases p with
      | word w =>
        refine ⟨w, rest, r, rfl, hd, ?_⟩
        cases r <;> simp_all [rejected]
      | message bytes =>
        obtain rfl := decodeMessage_error hd
        simp [rejected] at h

end Machine
end Sys2Proof
end

