-- ==== Sys2Proof/Laws/Decode.lean ====
section
/-! SUPPORT. The operation word taken apart and put together; what a presented word does. -/

namespace Sys2Proof

@[simp] theorem opOf_append (op : Byte) (opd : Half) : opOf (op ++ opd) = op :=
  BitVec.extractLsb'_append_eq_left

@[simp] theorem opdOf_append (op : Byte) (opd : Half) : opdOf (op ++ opd) = opd :=
  BitVec.extractLsb'_append_eq_right

theorem decodeWord_append (op : Byte) (opd : Half) : decodeWord (op ++ opd) = decodeOp op opd := by
  simp [decodeWord]

/-- An operation word is its two halves. -/
theorem opOf_append_opdOf (w : OpWord) : opOf w ++ opdOf w = w := by
  apply BitVec.eq_of_toNat_eq
  simp only [opOf, opdOf, BitVec.toNat_append, BitVec.extractLsb'_toNat]
  have := w.isLt
  rw [← Nat.shiftLeft_add_eq_or_of_lt (by omega)]
  simp only [Nat.shiftLeft_eq, Nat.shiftRight_eq_div_pow]
  omega

@[simp] theorem StatusReg.ofNumber_number (r : StatusReg) : StatusReg.ofNumber r.number = r := by
  cases r <;> rfl

@[simp] theorem StatusReg.number_ofNumber (n : BitVec 4) : (StatusReg.ofNumber n).number = n := by
  revert n
  decide

/-! ### The operand forms -/

theorem formB_opdB (mk : Byte → Instr) (b : Byte) : formB mk (opdB b) = .ok (mk b) := by
  have h : (opdB b).extractLsb' 8 8 = 0 := BitVec.extractLsb'_append_eq_left
  have h' : (opdB b).extractLsb' 0 8 = b := BitVec.extractLsb'_append_eq_right
  rw [formB, if_pos h, h']

theorem formBL_opdBL (mk : Byte → Bool → Instr) (b : Byte) (last : Bool) :
    formBL mk (opdBL b last) = .ok (mk b last) := by
  have h : (opdBL b last).extractLsb' 9 7 = 0 := by revert b last; decide
  have h' : (opdBL b last).extractLsb' 0 8 = b := by revert b last; decide
  have h'' : (opdBL b last).getLsbD 8 = last := by revert b last; decide
  rw [formBL, if_pos h, h', h'']

theorem formR_opdR (mk : StatusReg → Instr) (r : StatusReg) : formR mk (opdR r) = .ok (mk r) := by
  have h : (opdR r).extractLsb' 4 12 = 0 := BitVec.extractLsb'_append_eq_left
  have h' : (opdR r).extractLsb' 0 4 = r.number := BitVec.extractLsb'_append_eq_right
  rw [formR, if_pos h, h', StatusReg.ofNumber_number]

theorem formN_error (i : Instr) {opd : Half} (h : opd ≠ 0) : formN i opd = .error .reservedOperandBits :=
  if_neg h

theorem formB_error (mk : Byte → Instr) {opd : Half} (h : opd.extractLsb' 8 8 ≠ 0) :
    formB mk opd = .error .reservedOperandBits :=
  if_neg h

theorem formBL_error (mk : Byte → Bool → Instr) {opd : Half} (h : opd.extractLsb' 9 7 ≠ 0) :
    formBL mk opd = .error .reservedOperandBits :=
  if_neg h

theorem formR_error (mk : StatusReg → Instr) {opd : Half} (h : opd.extractLsb' 4 12 ≠ 0) :
    formR mk opd = .error .reservedOperandBits :=
  if_neg h

/-- An operand whose reserved bits are zero is the one the encoder writes. -/
theorem opdB_of_formB {mk : Byte → Instr} {opd : Half} {i : Instr} (h : formB mk opd = .ok i) :
    ∃ b, opd = opdB b ∧ i = mk b := by
  unfold formB at h
  split at h
  · rename_i h0
    refine ⟨_, ?_, (Except.ok.inj h).symm⟩
    apply BitVec.eq_of_toNat_eq
    have e := congrArg BitVec.toNat h0
    simp only [opdB, BitVec.toNat_append, BitVec.extractLsb'_toNat, Nat.shiftRight_eq_div_pow] at e ⊢
    simp at e ⊢
    have := opd.isLt
    omega
  · simp at h

theorem opdBL_of_formBL {mk : Byte → Bool → Instr} {opd : Half} {i : Instr} (h : formBL mk opd = .ok i) :
    ∃ b last, opd = opdBL b last ∧ i = mk b last := by
  unfold formBL at h
  split at h
  · rename_i h0
    refine ⟨_, _, ?_, (Except.ok.inj h).symm⟩
    apply BitVec.eq_of_getLsbD_eq
    intro k hk
    have e : ∀ j, j < 7 → opd.getLsbD (9 + j) = false := by
      intro j hj
      have := congrArg (fun v => BitVec.getLsbD v j) h0
      simpa [hj] using this
    simp only [opdBL, BitVec.getLsbD_append, BitVec.getLsbD_ofBool, BitVec.getLsbD_extractLsb']
    by_cases h8 : k < 8
    · simp [h8, show k < 1 + 8 by omega]
    · by_cases h9 : k = 8
      · subst h9; simp
      · have := e (k - 9) (by omega)
        rw [show 9 + (k - 9) = k by omega] at this
        simp [this, show ¬ k < 1 + 8 by omega]
  · simp at h

theorem opdR_of_formR {mk : StatusReg → Instr} {opd : Half} {i : Instr} (h : formR mk opd = .ok i) :
    ∃ r, opd = opdR r ∧ i = mk r := by
  unfold formR at h
  split at h
  · rename_i h0
    refine ⟨_, ?_, (Except.ok.inj h).symm⟩
    apply BitVec.eq_of_toNat_eq
    have e := congrArg BitVec.toNat h0
    simp only [opdR, StatusReg.number_ofNumber, BitVec.toNat_append, BitVec.extractLsb'_toNat,
      Nat.shiftRight_eq_div_pow] at e ⊢
    simp at e ⊢
    have := opd.isLt
    omega
  · simp at h

theorem opd_of_formN {i j : Instr} {opd : Half} (h : formN i opd = .ok j) : opd = 0 ∧ j = i := by
  unfold formN at h
  split at h
  · exact ⟨‹_›, (Except.ok.inj h).symm⟩
  · simp at h

namespace Machine

/-! ### A presented word -/

theorem step_present (p : Presentation) (s : State) :
    step (present p s) = match decode p with
      | .ok i => exec i s
      | .error r => rejected r s := rfl

theorem stepOn_ok {w : OpWord} {i : Instr} (h : decodeWord w = .ok i) (s : State) : stepOn w s = exec i s := by
  simp only [stepOn, step_present, decode, h]

/-- An operation word is never taken for a message. -/
theorem decodeWord_error_ne {w : OpWord} {r : Reject} (h : decodeWord w = .error r) : r ≠ .notAMessage := by
  unfold decodeWord decodeOp formN formB formBL formR formW at h
  split at h <;> (try split at h) <;> simp at h <;> subst h <;> simp

/-- A rejected word raises ILL and does nothing else (R58, R63). -/
theorem stepOn_error {w : OpWord} {r : Reject} (h : decodeWord w = .error r) (s : State) :
    RaisesIll s (stepOn w s) := by
  have hr := decodeWord_error_ne h
  simp only [stepOn, step_present, decode, h]
  cases r <;> first | exact ⟨_, _, rfl⟩ | contradiction

end Machine
end Sys2Proof
end

