-- ==== Sys2Proof/Laws/Units.lean ====
section
/-! SUPPORT. What each operation does in each of its cases: the lemmas that later proofs cite instead of unfolding a
meaning. -/

namespace Sys2Proof
namespace Machine

/-- Zero extension to 16 bits, by value. -/
theorem setWidth16_eq {w : Nat} (v : BitVec w) : v.setWidth 16 = BitVec.ofNat 16 v.toNat := by
  apply BitVec.eq_of_toNat_eq
  simp

theorem zext16_eq (b : Byte) : zext16 b = BitVec.ofNat 16 b.toNat := setWidth16_eq b

theorem hi8_eq (v : Half) : hi8 v = BitVec.ofNat 8 (v.toNat / 256) := by
  apply BitVec.eq_of_toNat_eq
  simp [hi8, Nat.shiftRight_eq_div_pow]

theorem lo8_eq (v : Half) : lo8 v = BitVec.ofNat 8 v.toNat := by
  apply BitVec.eq_of_toNat_eq
  simp [lo8]

theorem be16_eq (h l : Byte) : be16 h l = BitVec.ofNat 16 (256 * h.toNat + l.toNat) := by
  apply BitVec.eq_of_toNat_eq
  have := h.isLt
  have := l.isLt
  simp only [be16, BitVec.toNat_append, BitVec.toNat_ofNat]
  rw [← Nat.shiftLeft_add_eq_or_of_lt (by omega), Nat.shiftLeft_eq]
  omega

@[simp] theorem hi8_append_lo8 (v : Half) : (hi8 v ++ lo8 v : BitVec 16) = v := by
  apply BitVec.eq_of_toNat_eq
  simp only [hi8, lo8, BitVec.toNat_append, BitVec.extractLsb'_toNat]
  have := v.isLt
  rw [← Nat.shiftLeft_add_eq_or_of_lt (by omega)]
  simp only [Nat.shiftLeft_eq, Nat.shiftRight_eq_div_pow]
  omega

@[simp] theorem hi8_append (h l : Byte) : hi8 (h ++ l) = h := BitVec.extractLsb'_append_eq_left

@[simp] theorem lo8_append (h l : Byte) : lo8 (h ++ l) = l := BitVec.extractLsb'_append_eq_right

/-! ### Encoder -/

theorem estat_ne_idle {s : State} : s.estat ≠ .idle ↔ s.estat = .opened := by
  cases s.estat <;> simp

theorem feOpen_idle {s : State} (b : Byte) (h : s.estat = .idle) :
    feOpen b s = { s with estat := .opened }.emitting [Config.sof, b] :=
  if_neg (not_not.2 h)

theorem feOpen_opened {s : State} (b : Byte) (h : s.estat = .opened) : feOpen b s = s.raiseFault .seq :=
  if_pos (by simp [h])

theorem feArg8_opened {s : State} (b : Byte) (h : s.estat = .opened) : feArg8 b s = s.emitting [b] :=
  if_neg (not_not.2 h)

theorem feArg8_idle {s : State} (b : Byte) (h : s.estat = .idle) : feArg8 b s = s.raiseFault .seq :=
  if_pos (by simp [h])

theorem feArg16_opened {s : State} (v : Half) (h : s.estat = .opened) :
    feArg16 v s = s.emitting [hi8 v, lo8 v] :=
  if_neg (not_not.2 h)

theorem feArg16_idle {s : State} (v : Half) (h : s.estat = .idle) : feArg16 v s = s.raiseFault .seq :=
  if_pos (by simp [h])

theorem feClose_opened {s : State} (h : s.estat = .opened) :
    feClose s = { s with estat := .idle }.emitting [Config.eof] :=
  if_neg (not_not.2 h)

theorem feClose_idle {s : State} (h : s.estat = .idle) : feClose s = s.raiseFault .seq :=
  if_pos (by simp [h])

/-! ### Decoder -/

theorem fdPush_lt {s : State} (b : Byte) (h : s.flen.toNat < 8) :
    fdPush b s = { s with fb := frameSet s.fb s.flen.toNat b, flen := s.flen + 1 }.silent :=
  if_pos h

theorem fdPush_ge {s : State} (b : Byte) (h : 8 ≤ s.flen.toNat) : fdPush b s = { s with flen := 9 }.silent :=
  if_neg (by simpa [Config.frameLen] using h)

theorem fdDec_length {s : State} (p : Config.Params) (h : s.flen ≠ 8) :
    fdDecWith p s = decodeFails .lengthErr s :=
  if_pos (fun e => h (BitVec.eq_of_toNat_eq e))

theorem fdDecx_length {s : State} (p : Config.Params) (h : s.flen ≠ 8) :
    fdDecxWith p s = decodeFails .lengthErr s :=
  if_pos (fun e => h (BitVec.eq_of_toNat_eq e))

theorem fdDec_full {s : State} (p : Config.Params) (h : s.flen = 8) :
    fdDecWith p s = decodeCore p s.fb s :=
  if_neg (by simp [h, Config.frameLen])

theorem fdDecx_full {s : State} (p : Config.Params) (h : s.flen = 8) :
    fdDecxWith p s = decodeSucceeds p (frameRepair (frameMap (cipherByte p.key) s.fb)) s :=
  (if_neg (by simp [h, Config.frameLen])).trans (if_neg (by simp [frameRepair]))

theorem decodeCore_framing (p : Config.Params) {w : FrameImage} (s : State)
    (h : w.b0 ≠ Config.sof ∨ w.b7 ≠ Config.eof) : decodeCore p w s = decodeFails .framingErr s :=
  if_pos h

theorem decodeCore_delimited (p : Config.Params) {w : FrameImage} (s : State) (h0 : w.b0 = Config.sof)
    (h7 : w.b7 = Config.eof) : decodeCore p w s = decodeSucceeds p w s :=
  if_neg (by simp [h0, h7])

/-- A failed decode writes `DSTAT` and unspecifies the results. -/
theorem decodeFails_eq (d : DStat) (s : State) :
    ∃ (q : State) (v : Half) (n : Nat),
      decodeFails d s = { s.withResultsOf q with dstat := d, tx := [], dout := v, draws := n } :=
  ⟨s.unspecifyResults, _, _, rfl⟩

/-- A successful decode writes `DSTAT` and the results. -/
theorem decodeSucceeds_eq (p : Config.Params) (w : FrameImage) (s : State) :
    ∃ (q : State) (v : Half) (n : Nat),
      decodeSucceeds p w s = { s.withResultsOf q with dstat := .ok, tx := [], dout := v, draws := n } :=
  ⟨decodeSucceeds p w s, _, _, rfl⟩

/-- What any decode leaves unchanged. -/
theorem decodeCore_eq (p : Config.Params) (w : FrameImage) (s : State) :
    ∃ (q : State) (e : DStat) (v : Half) (n : Nat),
      decodeCore p w s = { s.withResultsOf q with dstat := e, tx := [], dout := v, draws := n } := by
  unfold decodeCore
  split
  · obtain ⟨q, v, n, h⟩ := decodeFails_eq .framingErr s
    exact ⟨q, _, v, n, h⟩
  · obtain ⟨q, v, n, h⟩ := decodeSucceeds_eq p w s
    exact ⟨q, _, v, n, h⟩

theorem fdDec_eq (p : Config.Params) (s : State) :
    ∃ (q : State) (e : DStat) (v : Half) (n : Nat),
      fdDecWith p s = { s.withResultsOf q with dstat := e, tx := [], dout := v, draws := n } := by
  unfold fdDecWith
  split
  · obtain ⟨q, v, n, h⟩ := decodeFails_eq .lengthErr s
    exact ⟨q, _, v, n, h⟩
  · exact decodeCore_eq p _ s

theorem fdDecx_eq (p : Config.Params) (s : State) :
    ∃ (q : State) (e : DStat) (v : Half) (n : Nat),
      fdDecxWith p s = { s.withResultsOf q with dstat := e, tx := [], dout := v, draws := n } := by
  unfold fdDecxWith
  split
  · obtain ⟨q, v, n, h⟩ := decodeFails_eq .lengthErr s
    exact ⟨q, _, v, n, h⟩
  · exact decodeCore_eq p _ s

/-! ### Receiver -/

theorem rxPut_outside {s : State} (p : Config.Params) (b : Byte) (last : Bool) (h : s.rstat ≠ .recv) :
    rxPutWith p b last s = s.raiseFault .seq :=
  if_pos h

theorem rxPut_full {s : State} (p : Config.Params) (b : Byte) (last : Bool) (h : s.rstat = .recv)
    (hf : s.rlen = p.bufCap) : rxPutWith p b last s = s.raiseFault .ovf :=
  (if_neg (not_not.2 h)).trans (if_pos hf)

theorem rxPut_stored {s : State} (p : Config.Params) (b : Byte) (last : Bool) (h : s.rstat = .recv)
    (hf : s.rlen ≠ p.bufCap) (ht : (last && (s.append b).sentinelSeen) = false) :
    rxPutWith p b last s = (s.append b).silent :=
  (if_neg (not_not.2 h)).trans ((if_neg hf).trans (if_neg (by simp [ht])))

theorem rxPut_sentinel {s : State} (p : Config.Params) (b : Byte) (last : Bool) (h : s.rstat = .recv)
    (hf : s.rlen ≠ p.bufCap) (ht : (last && (s.append b).sentinelSeen) = true) :
    rxPutWith p b last s = (s.append b).trimSentinel.silent :=
  (if_neg (not_not.2 h)).trans ((if_neg hf).trans (if_pos ht))

/-- The length after an append does not wrap while the buffer is not full. -/
theorem append_length {s : State} (b : Byte) (h : s.rlen ≠ 65535) :
    (s.append b).rlen.toNat = s.rlen.toNat + 1 := by
  have : s.rlen.toNat ≠ 65535 := fun e => h (BitVec.eq_of_toNat_eq e)
  have := s.rlen.isLt
  simp [BitVec.toNat_add]
  omega

/-- The sentinel test after an append, in terms of the state before it (R132 to R134). -/
theorem sentinelSeen_append {s : State} (b : Byte) (h : s.rlen ≠ 65535) :
    (s.append b).sentinelSeen = true ↔
      1 ≤ s.rlen.toNat ∧ s.rbufByte (s.rlen.toNat - 1) = 0xFF ∧ b = 0xFF := by
  unfold State.sentinelSeen
  rw [append_length b h]
  simp only [State.rbufByte_append, Config.sentinelByte, Bool.and_eq_true, decide_eq_true_eq, beq_iff_eq]
  constructor
  · rintro ⟨⟨h1, h2⟩, h3⟩
    have e : s.rlen.toNat + 1 - 2 = s.rlen.toNat - 1 := by omega
    rw [e, if_neg (by omega)] at h2
    rw [if_pos (by omega)] at h3
    exact ⟨by omega, h2, h3⟩
  · rintro ⟨h1, h2, h3⟩
    have e : s.rlen.toNat + 1 - 2 = s.rlen.toNat - 1 := by omega
    rw [e, if_neg (by omega), if_pos (by omega)]
    exact ⟨⟨by omega, h2⟩, h3⟩

theorem rxTmo_recv {s : State} (h : s.rstat = .recv) : rxTmo s = { s with rstat := .timeout }.silent :=
  if_pos h

theorem rxTmo_outside {s : State} (h : s.rstat ≠ .recv) : rxTmo s = s.silent := if_neg h

theorem rxRdb_received {s : State} {a : Half} (h : a < s.rlen) :
    rxRdb a s = s.answering (zext16 (s.rbufByte a.toNat)) :=
  if_neg (BitVec.not_le.2 h)

theorem rxRdb_beyond {s : State} {a : Half} (h : s.rlen ≤ a) : rxRdb a s = s.raiseFault .adr := if_pos h

end Machine
end Sys2Proof
end

