-- ==== Sys2Proof/Laws/Functions.lean ====
section
/-! SUPPORT. The document's functions: the fold and the cipher. -/

namespace Sys2Proof
namespace Machine

@[simp] theorem checksum_nil : checksum [] = 0 := rfl

theorem foldl_xor_start (a : Byte) (s : List Byte) : s.foldl (· ^^^ ·) a = a ^^^ checksum s := by
  unfold checksum
  induction s generalizing a with
  | nil => simp
  | cons b s ih =>
    rw [List.foldl_cons, List.foldl_cons, ih (a ^^^ b), ih (0 ^^^ b)]
    simp [BitVec.xor_assoc]

@[simp] theorem checksum_cons (b : Byte) (s : List Byte) : checksum (b :: s) = b ^^^ checksum s := by
  rw [checksum, List.foldl_cons, foldl_xor_start]
  simp

theorem checksum_append (s t : List Byte) : checksum (s ++ t) = checksum s ^^^ checksum t := by
  rw [checksum, List.foldl_append, foldl_xor_start]
  rfl

/-- The defining equation of R12. -/
theorem checksum_snoc (s : List Byte) (b : Byte) : checksum (s ++ [b]) = checksum s ^^^ b := by
  simp [checksum_append]

@[simp] theorem cipherByte_cipherByte (k b : Byte) : cipherByte k (cipherByte k b) = b := by
  simp [cipherByte]

@[simp] theorem length_cipher (k : Byte) (s : List Byte) : (cipher k s).length = s.length := by
  simp [cipher]

@[simp] theorem frameMap_frameMap_cipher (k : Byte) (w : FrameImage) :
    frameMap (cipherByte k) (frameMap (cipherByte k) w) = w := by
  simp [frameMap]

@[simp] theorem cipher_bytes (k : Byte) (w : FrameImage) :
    cipher k w.bytes = (frameMap (cipherByte k) w).bytes := rfl

@[simp] theorem length_bytes (w : FrameImage) : w.bytes.length = 8 := rfl

/-- A list of eight bytes is an image. -/
theorem exists_bytes_of_length {l : List Byte} (h : l.length = 8) : ∃ w : FrameImage, l = w.bytes := by
  match l, h with
  | [c0, c1, c2, c3, c4, c5, c6, c7], _ => exact ⟨⟨c0, c1, c2, c3, c4, c5, c6, c7⟩, rfl⟩

end Machine
end Sys2Proof
end

