-- ==== Sys2Proof/Laws/PerInstr.lean ====
section
/-! SUPPORT. A family of statements made per instruction: the encoder's output is of the instruction's row in
spec/opcode_table.json. -/

namespace Sys2Proof
namespace Laws
namespace RowMatch

/-- The mnemonic of an instruction's row. -/
def mnemonic : Instr → String
  | .nop => "NOP"
  | .rd _ => "RD"
  | .rst => "RST"
  | .bccClr => "BCC.CLR"
  | .bccAbs _ => "BCC.ABS"
  | .xcByte _ => "XC.BYTE"
  | .feOpen _ => "FE.OPEN"
  | .feArg8 _ => "FE.ARG8"
  | .feArg16 _ => "FE.ARG16"
  | .feClose => "FE.CLOSE"
  | .fdClr => "FD.CLR"
  | .fdPush _ => "FD.PUSH"
  | .fdDec => "FD.DEC"
  | .fdDecx => "FD.DECX"
  | .rxStart => "RX.START"
  | .rxPut _ _ => "RX.PUT"
  | .rxTmo => "RX.TMO"
  | .rxRdb _ => "RX.RDB"
  | .wireFrame _ => "WIRE.Frame"
  | .wireEncryptedFrame _ => "WIRE.EncryptedFrame"
  | .cmdAdjust _ _ _ => "CMD.ADJUST"
  | .cmdStream => "CMD.STREAM"
  | .cmdXstream => "CMD.XSTREAM"
  | .cmdFile => "CMD.FILE"
  | .wireSentinel => "WIRE.Sentinel"

/-- The lengths of the wire rows' patterns. -/
def wireLengths : List (String × Nat) :=
  [("WIRE.Frame", 8), ("WIRE.EncryptedFrame", 8), ("CMD.ADJUST", 9), ("CMD.STREAM", 3), ("CMD.XSTREAM", 3),
   ("CMD.FILE", 3), ("WIRE.Sentinel", 2)]

/-- Does the presentation belong to the row of this mnemonic? -/
def inRow (m : String) : Presentation → Bool
  | .word w => opcodeTable.any fun row => row.mnemonic == m && row.matches w
  | .message bytes => wireLengths.contains (m, bytes.length)

/-- An operation's word matches the row of its mnemonic (R62); a message has the length of its row's pattern. -/
def Statement (i : Instr) : Prop := inRow (mnemonic i) (encode i) = true

theorem inRow_word {m : String} {w : OpWord} (row : OpRow) (hm : row ∈ opcodeTable)
    (hn : row.mnemonic = m) (hw : row.matches w = true) : inRow m (.word w) = true :=
  List.any_eq_true.2 ⟨row, hm, by simp [hn, hw]⟩

/-- A word matches a row once its two halves do. -/
theorem matches_opWord (op : Byte) (opd maskOp : Half) (m : String)
    (h : opd &&& maskOp = 0) :
    (⟨m, opWord op 0, opWord 0xFF maskOp⟩ : OpRow).matches (opWord op opd) = true := by
  have e : opWord op opd &&& opWord 0xFF maskOp = opWord op 0 := by
    unfold opWord
    have h1 : op &&& 0xFF = op := by revert op; decide
    have h2 := BitVec.and_append (x₁ := op) (x₂ := 0xFF) (y₁ := opd) (y₂ := maskOp)
    rw [h, h1] at h2
    exact h2
  exact beq_iff_eq.2 e

theorem opdB_reserved (b : Byte) : opdB b &&& 0xFF00 = 0 := by revert b; decide

theorem opdBL_reserved (b : Byte) (last : Bool) : opdBL b last &&& 0xFE00 = 0 := by
  revert b last; decide

theorem nop : Statement .nop := by unfold Statement; decide
theorem rd (r : StatusReg) : Statement (.rd r) := by unfold Statement; cases r <;> decide
theorem rst : Statement .rst := by unfold Statement; decide
theorem bccClr : Statement .bccClr := by unfold Statement; decide
theorem bccAbs (b : Byte) : Statement (.bccAbs b) :=
  inRow_word ⟨"BCC.ABS", opWord 0x11 0, opWord 0xFF 0xFF00⟩ (by decide) rfl (matches_opWord _ _ _ _ (opdB_reserved b))
theorem xcByte (b : Byte) : Statement (.xcByte b) :=
  inRow_word ⟨"XC.BYTE", opWord 0x20 0, opWord 0xFF 0xFF00⟩ (by decide) rfl (matches_opWord _ _ _ _ (opdB_reserved b))
theorem feOpen (b : Byte) : Statement (.feOpen b) :=
  inRow_word ⟨"FE.OPEN", opWord 0x30 0, opWord 0xFF 0xFF00⟩ (by decide) rfl (matches_opWord _ _ _ _ (opdB_reserved b))
theorem feArg8 (b : Byte) : Statement (.feArg8 b) :=
  inRow_word ⟨"FE.ARG8", opWord 0x31 0, opWord 0xFF 0xFF00⟩ (by decide) rfl (matches_opWord _ _ _ _ (opdB_reserved b))
theorem feArg16 (v : Half) : Statement (.feArg16 v) :=
  inRow_word ⟨"FE.ARG16", opWord 0x32 0, opWord 0xFF 0⟩ (by decide) rfl (matches_opWord _ _ _ _ BitVec.and_zero)
theorem feClose : Statement .feClose := by unfold Statement; decide
theorem fdClr : Statement .fdClr := by unfold Statement; decide
theorem fdPush (b : Byte) : Statement (.fdPush b) :=
  inRow_word ⟨"FD.PUSH", opWord 0x41 0, opWord 0xFF 0xFF00⟩ (by decide) rfl (matches_opWord _ _ _ _ (opdB_reserved b))
theorem fdDec : Statement .fdDec := by unfold Statement; decide
theorem fdDecx : Statement .fdDecx := by unfold Statement; decide
theorem rxStart : Statement .rxStart := by unfold Statement; decide
theorem rxPut (b : Byte) (last : Bool) : Statement (.rxPut b last) :=
  inRow_word ⟨"RX.PUT", opWord 0x51 0, opWord 0xFF 0xFE00⟩ (by decide) rfl (matches_opWord _ _ _ _ (opdBL_reserved b last))
theorem rxTmo : Statement .rxTmo := by unfold Statement; decide
theorem rxRdb (a : Half) : Statement (.rxRdb a) :=
  inRow_word ⟨"RX.RDB", opWord 0x53 0, opWord 0xFF 0⟩ (by decide) rfl (matches_opWord _ _ _ _ BitVec.and_zero)
theorem wireFrame (raw : FrameImage) : Statement (.wireFrame raw) := by
  rfl
theorem wireEncryptedFrame (raw : FrameImage) : Statement (.wireEncryptedFrame raw) := by
  rfl
theorem cmdAdjust (lower upper frequency : Half) : Statement (.cmdAdjust lower upper frequency) := by
  rfl
theorem cmdStream : Statement .cmdStream := by unfold Statement; decide
theorem cmdXstream : Statement .cmdXstream := by unfold Statement; decide
theorem cmdFile : Statement .cmdFile := by unfold Statement; decide
theorem wireSentinel : Statement .wireSentinel := by unfold Statement; decide

end RowMatch
end Laws
end Sys2Proof
end

