-- ==== Sys2Proof/Laws/Runs.lean ====
section
/-! SUPPORT. Runs of operations, and the wire messages as runs of operations: a property of every operation is a
property of every instruction. -/

namespace Sys2Proof
namespace Machine

/-- One more operation in front of a run. -/
theorem runProgram_cons {i : Instr} {is : List Instr} {s : State} {r : Run}
    (h : runProgram is (after i s) = .next r) :
    runProgram (i :: is) s = .next ⟨r.final, (after i s).tx ++ r.tx, (after i s).dout :: r.douts⟩ := by
  simp [runProgram, exec_eq_next, h]

theorem runProgram_one (i : Instr) (s : State) :
    runProgram [i] s = .next ⟨after i s, (after i s).tx, [(after i s).dout]⟩ := by
  rw [runProgram_cons (r := ⟨after i s, [], []⟩) rfl]
  simp

/-- Every run ends with a next state. -/
theorem runProgram_ok (is : List Instr) (s : State) : ∃ r, runProgram is s = .next r := by
  induction is generalizing s with
  | nil => exact ⟨_, rfl⟩
  | cons i is ih =>
    obtain ⟨r, h⟩ := ih (after i s)
    exact ⟨_, runProgram_cons h⟩

/-- A run after a run. -/
theorem runProgram_append {is js : List Instr} {s : State} {r r' : Run} (h : runProgram is s = .next r)
    (h' : runProgram js r.final = .next r') :
    runProgram (is ++ js) s = .next ⟨r'.final, r.tx ++ r'.tx, r.douts ++ r'.douts⟩ := by
  induction is generalizing s r with
  | nil =>
    simp only [runProgram, Host.Outcome.next.injEq] at h
    subst h
    simpa using h'
  | cons i is ih =>
    obtain ⟨q, hq⟩ := runProgram_ok is (after i s)
    rw [runProgram_cons hq] at h
    simp only [Host.Outcome.next.injEq] at h
    subst h
    rw [List.cons_append, runProgram_cons (ih hq h')]
    simp

/-- What each instruction of a run keeps, the run keeps. -/
theorem runProgram_keeps {P : State → Prop} {is : List Instr} {s : State} {r : Run}
    (hops : ∀ i ∈ is, ∀ t, P t → P (after i t)) (hs : P s) (h : runProgram is s = .next r) : P r.final := by
  induction is generalizing s r with
  | nil =>
    simp only [runProgram, Host.Outcome.next.injEq] at h
    exact h ▸ hs
  | cons i is ih =>
    obtain ⟨q, hq⟩ := runProgram_ok is (after i s)
    rw [runProgram_cons hq] at h
    simp only [Host.Outcome.next.injEq] at h
    subst h
    exact ih (r := q) (fun j hj => hops j (List.mem_cons_of_mem _ hj)) (hops i List.mem_cons_self s hs) hq

/-! ### The host's run -/

/-- The host's run, one step at a time. -/
theorem core_run_succ {k : Nat} {s t : State} (h : step s = .next t) :
    Host.Core.run core (k + 1) s = Host.Core.run core k t := by
  have h' : Host.Core.step core s = Host.Outcome.next t := h
  simp only [Host.Core.run, h']

/-! ### Messages -/

theorem after_message {i : Instr} (h : isOperation i = false) (s : State) :
    after i s = s.runOps ((expand i).map after) := by
  cases i <;> first | (cases h; done) | rfl

theorem expand_operation {i : Instr} (h : isOperation i = true) : expand i = [i] := by
  cases i <;> first | (cases h; done) | rfl

/-- A message stands for operations, not for messages. -/
theorem isOperation_of_mem_expand {i j : Instr} (h : j ∈ expand i) : isOperation j = true := by
  have hl : ∀ l : List Instr, l.all isOperation = true → ∀ j ∈ l, isOperation j = true := by simp
  refine hl _ ?_ j h
  cases i <;> rfl

/-- An instruction does not read what was emitted before. -/
theorem after_ignores_tx (i : Instr) (s : State) (bytes : List Byte) :
    after i { s with tx := bytes } = after i s := by
  cases i with
  | feOpen b => simp only [after, feOpen]; split <;> rfl
  | feArg8 b => simp only [after, feArg8]; split <;> rfl
  | feArg16 b => simp only [after, feArg16]; split <;> rfl
  | feClose => simp only [after, feClose]; split <;> rfl
  | fdPush b => simp only [after, fdPush]; split <;> rfl
  | fdDec => simp only [after, fdDecWith, decodeCore]; (repeat' split) <;> rfl
  | fdDecx => simp only [after, fdDecxWith, decodeCore]; (repeat' split) <;> rfl
  | rxPut b l =>
    simp only [after, rxPutWith]
    (repeat' split)
    all_goals first | rfl | contradiction
  | rxTmo => simp only [after, rxTmo]; split <;> rfl
  | rxRdb a => simp only [after, rxRdb]; split <;> rfl
  | _ => rfl

/-- The run inside a message is the run of its operations one by one. -/
theorem runOps_eq_runProgram {is : List Instr} {s : State} {r : Run}
    (hr : runProgram is s = .next r) : s.runOps (is.map after) = { r.final with tx := r.tx } := by
  suffices H : ∀ (is : List Instr) (s : State) (r : Run) (bytes : List Byte), runProgram is s = .next r →
      (is.map after).foldl State.thenRun { s with tx := bytes } = { r.final with tx := bytes ++ r.tx } by
    simpa [State.runOps] using H is s r [] hr
  clear hr r s is
  intro is
  induction is with
  | nil =>
    intro s r bytes h
    simp only [runProgram, Host.Outcome.next.injEq] at h
    subst h
    simp
  | cons i is ih =>
    intro s r bytes h
    obtain ⟨q, hq⟩ := runProgram_ok is (after i s)
    rw [runProgram_cons hq] at h
    simp only [Host.Outcome.next.injEq] at h
    subst h
    have := ih (after i s) q (bytes ++ (after i s).tx) hq
    rw [List.map_cons, List.foldl_cons, State.thenRun, after_ignores_tx, this]
    simp

/-- What the operations that an instruction stands for keep, it keeps. -/
theorem after_keeps {P : State → Prop} {i : Instr} {s : State}
    (htx : ∀ (t : State) (bytes : List Byte), P t → P { t with tx := bytes })
    (hops : ∀ j ∈ expand i, ∀ t, P t → P (after j t)) (hs : P s) : P (after i s) := by
  cases h : isOperation i
  · rw [after_message h]
    refine State.runOps_keeps htx ?_ hs
    simpa using hops
  · exact hops i (by simp [expand_operation h]) s hs

end Machine
end Sys2Proof
end

