-- ==== Sys2Proof/Laws/Procedures.lean ====
section
/-! SUPPORT. Host programs: how one runs, and what the reads of the procedures return. Induction over reachable
states. -/

namespace Sys2Proof
namespace Machine

/-- What holds after every hardware reset and is kept by every operation holds of every reachable state. -/
theorem Reachable.of_kept {P : State → Prop} (hr : ∀ draw presented, P (State.atReset draw presented))
    (ho : ∀ i s, isOperation i = true → P s → P (after i s)) {s : State} (h : Reachable s) : P s := by
  induction h with
  | reset draw presented => exact hr draw presented
  | operation _ hi he ih =>
    rw [exec_eq_next] at he
    injection he with he
    exact he ▸ ho _ _ hi ih

/-! ### Running a host program -/

theorem HostProgram.run_give {α : Type} {i : Instr} {next : Half → HostProgram α} {s : State} {r : Answer α}
    (h : (next (after i s).dout).run (after i s) = .next r) :
    (HostProgram.give i next).run s = .next ⟨r.final, (after i s).tx ++ r.tx, r.value⟩ := by
  simp [HostProgram.run, exec_eq_next, h]

theorem HostProgram.run_giveAll {α : Type} {is : List Instr} {rest : HostProgram α} {s : State} {q : Run}
    {r : Answer α} (h : runProgram is s = .next q) (h' : rest.run q.final = .next r) :
    (giveAll is rest).run s = .next ⟨r.final, q.tx ++ r.tx, r.value⟩ := by
  induction is generalizing s q with
  | nil =>
    simp only [runProgram, Host.Outcome.next.injEq] at h
    subst h
    simpa [giveAll] using h'
  | cons i is ih =>
    obtain ⟨p, hp⟩ := runProgram_ok is (after i s)
    rw [runProgram_cons hp] at h
    simp only [Host.Outcome.next.injEq] at h
    subst h
    refine (HostProgram.run_give (ih hp h')).trans ?_
    simp

theorem HostProgram.run_collect {α : Type} {is : List Instr} {rest : List Half → HostProgram α} {s : State}
    {q : Run} {r : Answer α} (h : runProgram is s = .next q) (h' : (rest q.douts).run q.final = .next r) :
    (collect is rest).run s = .next ⟨r.final, q.tx ++ r.tx, r.value⟩ := by
  induction is generalizing s q rest with
  | nil =>
    simp only [runProgram, Host.Outcome.next.injEq] at h
    subst h
    simpa [collect] using h'
  | cons i is ih =>
    obtain ⟨p, hp⟩ := runProgram_ok is (after i s)
    rw [runProgram_cons hp] at h
    simp only [Host.Outcome.next.injEq] at h
    subst h
    refine (HostProgram.run_give (ih (rest := fun vs => rest ((after i s).dout :: vs)) hp h')).trans ?_
    simp

/-! ### Reads -/

/-- The two states differ at most in the outputs. -/
def SameState (s t : State) : Prop := { t with tx := s.tx, dout := s.dout, draws := s.draws } = s

theorem SameState.refl (s : State) : SameState s s := rfl

theorem SameState.trans {s t u : State} (h : SameState s t) (k : SameState t u) : SameState s u := by
  have := congrArg (fun v : State => { v with tx := s.tx, dout := s.dout, draws := s.draws }) k
  exact this.trans h

/-- A field that is no output is the same. -/
theorem SameState.field {α : Type} {s t : State} (h : SameState s t) (f : State → α)
    (hf : ∀ (u : State) tx dout draws, f { u with tx := tx, dout := dout, draws := draws } = f u) : f t = f s :=
  (hf t s.tx s.dout s.draws).symm.trans (congrArg f h)

/-- Giving an operation that reads and going on. -/
theorem HostProgram.run_rd {α : Type} {reg : StatusReg} {next : Half → HostProgram α} {s : State} {r : Answer α}
    (h : (next (readStatus Config.params s reg)).run (s.answering (readStatus Config.params s reg)) = .next r) :
    (HostProgram.give (.rd reg) next).run s = .next r :=
  HostProgram.run_give (i := .rd reg) h

/-- The low byte of a zero-extended byte. -/
@[simp] theorem lo8_setWidth (b : Byte) : lo8 (b.setWidth 16) = b := by
  apply BitVec.eq_of_toNat_eq
  have := b.isLt
  simp only [lo8, BitVec.extractLsb'_toNat, BitVec.toNat_setWidth]
  omega

/-- The reads after a decode return the outcome that stands in the registers, and change nothing. -/
theorem readDecoded_run {s : State} {o : Except DecodeError ParsedFrame} (h : decodeOutcome s = some o) :
    ∃ r, readDecoded.run s = .next r ∧ r.value = o ∧ r.tx = [] ∧ SameState s r.final := by
  unfold decodeOutcome at h
  cases hd : s.dstat with
  | none => simp [hd] at h
  | lengthErr =>
    simp only [hd, Option.some.injEq] at h
    subst h
    refine ⟨⟨s.answering 2, [], _⟩, HostProgram.run_rd ?_, rfl, rfl, rfl⟩
    simp only [readStatus, hd]
    rfl
  | framingErr =>
    simp only [hd, Option.some.injEq] at h
    subst h
    refine ⟨⟨s.answering 3, [], _⟩, HostProgram.run_rd ?_, rfl, rfl, rfl⟩
    simp only [readStatus, hd]
    rfl
  | ok =>
    simp only [hd, Option.some.injEq] at h
    subst h
    refine ⟨⟨s.answering ((BitVec.ofBool s.ckv).setWidth 16), [], _⟩, HostProgram.run_rd ?_, rfl, rfl, rfl⟩
    simp only [readStatus, hd]
    refine HostProgram.run_rd <| HostProgram.run_rd <| HostProgram.run_rd <| HostProgram.run_rd <|
      HostProgram.run_rd <| HostProgram.run_rd <| HostProgram.run_rd ?_
    simp only [HostProgram.run, readStatus, State.answering, lo8_setWidth]
    cases s.ckv <;> rfl

/-- Reading addresses below `RLEN` returns the received bytes and changes nothing. -/
theorem readBytes_run (as : List Nat) {s : State} (h : ∀ a ∈ as, a < s.rlen.toNat) :
    ∃ r, runProgram (as.map fun a => .rxRdb (BitVec.ofNat 16 a)) s = .next r ∧
      r.douts.map lo8 = as.map s.rbufByte ∧ r.tx = [] ∧ SameState s r.final := by
  induction as generalizing s with
  | nil => exact ⟨_, rfl, rfl, rfl, rfl⟩
  | cons a as ih =>
    have ha := h a List.mem_cons_self
    have hn : (BitVec.ofNat 16 a).toNat = a := by
      have := s.rlen.isLt
      simp
      omega
    have hlt : BitVec.ofNat 16 a < s.rlen := by
      show (BitVec.ofNat 16 a).toNat < s.rlen.toNat
      omega
    have e : after (.rxRdb (BitVec.ofNat 16 a)) s = s.answering (zext16 (s.rbufByte a)) := by
      refine (rxRdb_received hlt).trans ?_
      rw [hn]
    obtain ⟨r, h1, h2, h3, h4⟩ := ih (s := after (.rxRdb (BitVec.ofNat 16 a)) s)
      (by rw [e]; exact fun b hb => h b (List.mem_cons_of_mem _ hb))
    refine ⟨_, runProgram_cons h1, ?_, by simp [h3, e], ?_⟩
    · rw [e] at h2
      simp only [List.map_cons, h2, e]
      exact congrArg (· :: _) (lo8_setWidth _)
    · refine SameState.trans ?_ h4
      rw [e]
      rfl

/-- The reads after a reception return what stands in the state, and change nothing but the outputs. -/
theorem readReceived_run {α : Type} {rest : FileTransferResult → HostProgram α} {s : State} :
    ∃ t, SameState s t ∧ ∀ r, (rest (fileResult s)).run t = .next r → (readReceived rest).run s = .next r := by
  obtain ⟨q, h1, h2, h3, h4⟩ := readBytes_run (List.range s.rlen.toNat) (s := s.answering s.rlen)
    (fun a ha => List.mem_range.1 ha)
  have hst : q.final.rstat = s.rstat := h4.field State.rstat (fun _ _ _ _ => rfl)
  refine ⟨q.final.answering ((rstatCode q.final.rstat).setWidth 16), SameState.trans (t := q.final) ?_ rfl, ?_⟩
  · exact SameState.trans (t := s.answering s.rlen) rfl h4
  · intro r hr
    refine HostProgram.run_rd ?_
    refine (HostProgram.run_collect (r := r) h1 (HostProgram.run_rd ?_)).trans ?_
    · rw [h2]
      have e : ((rstatCode q.final.rstat).setWidth 16 == (rstatCode .timeout).setWidth 16) =
          decide (s.rstat = .timeout) := by
        rw [hst]
        cases s.rstat <;> rfl
      simp only [readStatus, e]
      exact hr
    · simp [h3]

/-- The head of the receiver's loop while the reception runs. -/
theorem whileReceiving_recv {α : Type} {body : HostProgram α} {rest : FileTransferResult → HostProgram α}
    {s : State} {r : Answer α} (hs : s.rstat = .recv) (h : body.run (s.answering 1) = .next r) :
    (whileReceiving body rest).run s = .next r := by
  refine HostProgram.run_rd ?_
  simp only [readStatus, hs]
  exact h

/-- The head of the receiver's loop once the reception is over. -/
theorem whileReceiving_over {α : Type} {body : HostProgram α} {rest : FileTransferResult → HostProgram α}
    {s : State} (hs : s.rstat ≠ .recv) :
    ∃ t, SameState s t ∧
      ∀ r, (rest (fileResult s)).run t = .next r → (whileReceiving body rest).run s = .next r := by
  obtain ⟨t, h1, h2⟩ := readReceived_run (rest := rest) (s := s.answering ((rstatCode s.rstat).setWidth 16))
  refine ⟨t, SameState.trans (t := s.answering ((rstatCode s.rstat).setWidth 16)) rfl h1, fun r hr => ?_⟩
  refine HostProgram.run_rd ?_
  have hne : (rstatCode s.rstat).setWidth 16 ≠ (rstatCode .recv).setWidth 16 := by
    cases h : s.rstat <;> simp_all [rstatCode]
  rw [readStatus, if_neg hne]
  exact h2 r hr

end Machine
end Sys2Proof
end

