-- ==== Sys2Proof/Tests/Slice0.lean ====
section
/-! SUPPORT. Tests of the model, and for every statement with hypotheses a state and operands that meet them. Expected
values are spec/95_test_vectors.md's (S, V, P), the examples of the operation rules (R), or worked by hand from a
rule's pseudocode where no vector is named. -/

namespace Sys2Proof
namespace Tests

open Machine

/-! ### Helpers -/

/-- A state of plain values: the good frame of S3 in a full frame buffer, everything else at rest. -/
def base : State where
  acc := 0x3B
  fb := ⟨0x7B, 0x00, 0x64, 0x4F, 0x4B, 0x20, 0x3B, 0x7D⟩
  flen := 8
  dstat := .none
  res := 7
  alarm0 := 1
  alarm1 := 2
  alarm2 := 3
  aerr := false
  calcReg := 4
  recvReg := 5
  ckv := false
  estat := .idle
  rstat := .idle
  rlen := 0
  rbuf := []
  flt := 0
  tx := [0x99]
  dout := 0x1234
  presented := []
  draws := 5

/-- A Command is open. -/
def opened : State := { base with estat := .opened }

/-- A reception holds `hello`, then one `FF` (the example of R132). -/
def receiving : State :=
  { base with
    rstat := .recv
    rlen := 6
    rbuf := [(0, 0x68), (1, 0x65), (2, 0x6C), (3, 0x6C), (4, 0x6F), (5, 0xFF)] }

/-- `base` with another frame in the buffer. -/
def framed (w : FrameImage) : State := { base with fb := w }

/-- A value of the next state. -/
def get {α : Type} (f : State → α) (o : Host.Outcome State Fault Refusal) : Option α :=
  match o with
  | .next s => some (f s)
  | .fault _ => none
  | .refused _ => none

/-- Is the word an illegal one of R63? -/
def hasIllegalOp (w : OpWord) : Bool := decide (decodeWord w = .error .illegalOp)

/-! ### Well-formedness: an ill-formed term for each check -/

theorem test_wf_frame_start : (Instr.wireFrame ⟨0x7A, 0, 0x64, 0x4F, 0x4B, 0x20, 0x3B, 0x7D⟩).wellFormed = false := by
  decide

theorem test_wf_frame_end : (Instr.wireFrame ⟨0x7B, 0, 0x64, 0x4F, 0x4B, 0x20, 0x3B, 0x7B⟩).wellFormed = false := by
  decide

theorem test_wf_encrypted_start :
    (Instr.wireEncryptedFrame ⟨0x7B, 0xAA, 0xCE, 0xE5, 0xE1, 0x8A, 0x91, 0xD7⟩).wellFormed = false := by
  decide

theorem test_wf_encrypted_end :
    (Instr.wireEncryptedFrame ⟨0xD1, 0xAA, 0xCE, 0xE5, 0xE1, 0x8A, 0x91, 0x7D⟩).wellFormed = false := by
  decide

theorem test_wf_accepts :
    (Instr.wireFrame ⟨0x7B, 0, 0x64, 0x4F, 0x4B, 0x20, 0x3B, 0x7D⟩).wellFormed = true ∧
      (Instr.wireEncryptedFrame ⟨0xD1, 0xAA, 0xCE, 0xE5, 0xE1, 0x8A, 0x91, 0xD7⟩).wellFormed = true := by
  decide

/-! ### Decoding: every row by a word written out from its encoding (R55, R57, R62, R66 to R71) -/

theorem test_decode_system :
    decodeWord 0b000000000000000000000000 = .ok .nop ∧ decodeWord 0b000000010000000000001010 = .ok (.rd .ckv) ∧
      decodeWord 0b000011110000000000000000 = .ok .rst := by
  decide

theorem test_decode_checksum :
    decodeWord 0b000100000000000000000000 = .ok .bccClr ∧
      decodeWord 0b000100010000000001100100 = .ok (.bccAbs 0x64) := by
  decide

theorem test_decode_cipher : decodeWord 0b001000000000000011010001 = .ok (.xcByte 0xD1) := by decide

theorem test_decode_encoder :
    decodeWord 0b001100000000000000000001 = .ok (.feOpen 1) ∧ decodeWord 0b001100010000000011110100 = .ok (.feArg8 0xF4) ∧
      decodeWord 0b001100100000000111110100 = .ok (.feArg16 500) ∧ decodeWord 0b001100110000000000000000 = .ok .feClose := by
  decide

theorem test_decode_decoder :
    decodeWord 0b010000000000000000000000 = .ok .fdClr ∧ decodeWord 0b010000010000000001111101 = .ok (.fdPush 0x7D) ∧
      decodeWord 0b010000100000000000000000 = .ok .fdDec ∧ decodeWord 0b010000110000000000000000 = .ok .fdDecx := by
  decide

theorem test_decode_receiver :
    decodeWord 0b010100000000000000000000 = .ok .rxStart ∧
      decodeWord 0b010100010000000101101100 = .ok (.rxPut 0x6C true) ∧
      decodeWord 0b010100010000000001101000 = .ok (.rxPut 0x68 false) ∧
      decodeWord 0b010100100000000000000000 = .ok .rxTmo ∧
      decodeWord 0b010100111000000000000101 = .ok (.rxRdb 0x8005) := by
  decide

/-- S3, S6, S9, V35 to V37, R71. -/
theorem test_decode_messages :
    decodeTableWord 64 0x7B00644F4B203B7D = some (.wireFrame ⟨0x7B, 0x00, 0x64, 0x4F, 0x4B, 0x20, 0x3B, 0x7D⟩) ∧
      decodeTableWord 64 0xD1AACEE5E18A91D7 =
        some (.wireEncryptedFrame ⟨0xD1, 0xAA, 0xCE, 0xE5, 0xE1, 0x8A, 0x91, 0xD7⟩) ∧
      decodeTableWord 72 0x7B01000A01F400027D = some (.cmdAdjust 10 500 2) ∧
      decodeTableWord 24 0x7B027D = some .cmdStream ∧ decodeTableWord 24 0x7B037D = some .cmdXstream ∧
      decodeTableWord 24 0x7B047D = some .cmdFile ∧ decodeTableWord 16 0xFFFF = some .wireSentinel := by
  decide

theorem test_decode_rejects_messages :
    decodeMessage [] = .error .notAMessage ∧ decodeMessage [0xFF, 0xFE] = .error .notAMessage ∧
      decodeMessage [0x7B, 0x01, 0x7D] = .error .notAMessage ∧
      decodeMessage [0x7B, 0x00, 0x64, 0x4F, 0x4B, 0x20, 0x3B, 0xD7] = .error .notAMessage ∧
      decodeMessage [0x7B, 0x02, 0x00, 0x0A, 0x01, 0xF4, 0x00, 0x02, 0x7D] = .error .notAMessage := by
  decide

/-- R62: "pairwise disjoint". Two rows differ in a bit that both fix. -/
theorem test_rows_disjoint :
    opcodeTable.Pairwise fun a b => a.pattern &&& b.mask &&& a.mask ≠ b.pattern &&& a.mask &&& b.mask := by
  decide

/-- R63: the ends of every run of illegal `op` values, and their neighbours. -/
theorem test_illegal_op_boundaries :
    [(0x020000 : OpWord), 0x0E0000, 0x120000, 0x1F0000, 0x210000, 0x2F0000, 0x340000, 0x3F0000, 0x440000, 0x4F0000,
        0x540000, 0xFFFFFF].all hasIllegalOp = true ∧
      [(0x010000 : OpWord), 0x0F0000, 0x110000, 0x200000, 0x330000, 0x430000, 0x530000].any hasIllegalOp = false := by
  decide

/-! ### Memory -/

theorem test_memory_overwrites_in_place :
    Memory.write [(0, 0x68), (1, 0x65)] 0 0x41 = [(0, 0x41), (1, 0x65)] := by decide

theorem test_memory_keeps_the_order :
    Memory.write [(0, 0x68), (5, 0x65)] 3 0x41 = [(0, 0x68), (3, 0x41), (5, 0x65)] ∧
      Memory.wf [(3, 0x41), (0, 0x68)] = false ∧ Memory.wf [(3, 0x41), (3, 0x68)] = false := by
  decide

/-! ### One step of each instruction -/

/-- V63. -/
theorem test_nop : get (fun s => (s.acc, s.flt, s.tx)) (exec .nop base) = some (0x3B, 0, []) := by decide

/-- V64, V65. -/
theorem test_rd : get State.dout (exec (.rd .acc) base) = some 0x003B ∧ get State.dout (exec (.rd .key) base) = some 0x00AA := by
  decide

/-- V78. -/
theorem test_rd_flt_does_not_clear :
    get (fun s => (s.dout, s.flt)) (exec (.rd .flt) { base with flt := 2 }) = some (0x0002, 2) := by decide

/-- V69. -/
theorem test_rst :
    get (fun s => ((s.acc, s.flen, s.dstat, s.estat), s.rstat, s.rlen, s.flt, s.tx))
      (exec .rst { receiving with flt := 2, estat := .opened, acc := 0x70, flen := 9, dstat := .ok }) =
        some ((0, 0, .none, .idle), .idle, 0, 0, []) := by
  decide

/-- The example of R80. -/
theorem test_bcc_clr : get (fun s => (s.acc, s.flen)) (exec .bccClr base) = some (0, 8) := by decide

/-- The example of R81. -/
theorem test_bcc_abs : get State.acc (exec (.bccAbs 0x64) { base with acc := 0x7B }) = some 0x1F := by decide

/-- V13, V14a. -/
theorem test_xc_byte :
    get (fun s => (s.dout, s.acc)) (exec (.xcByte 0xFF) base) = some (0x0055, 0x3B) ∧
      get State.dout (exec (.xcByte 0x7B) base) = some 0x00D1 := by
  decide

/-- The example of R91. -/
theorem test_fe_open : get (fun s => (s.tx, s.estat)) (exec (.feOpen 0x02) base) = some ([0x7B, 0x02], .opened) := by
  decide

/-- V44. -/
theorem test_fe_open_twice :
    get (fun s => (s.tx, s.estat, s.flt)) (exec (.feOpen 0x03) opened) = some ([], .opened, 0b0010) := by decide

/-- The example of R92, and V42. -/
theorem test_fe_arg8 :
    get (fun s => (s.tx, s.estat)) (exec (.feArg8 0x0A) opened) = some ([0x0A], .opened) ∧
      get (fun s => (s.tx, s.flt)) (exec (.feArg8 0x01) base) = some ([], 2) := by
  decide

/-- The example of R93. -/
theorem test_fe_arg16 : get State.tx (exec (.feArg16 0x01F4) opened) = some [0x01, 0xF4] := by decide

/-- R93: `SEQ` when no Command is open. -/
theorem test_fe_arg16_idle : get (fun s => (s.tx, s.flt)) (exec (.feArg16 0x01F4) base) = some ([], 2) := by decide

/-- The example of R94, and V43. -/
theorem test_fe_close :
    get (fun s => (s.tx, s.estat, s.flt)) (exec .feClose opened) = some ([0x7D], .idle, 0) ∧
      get (fun s => (s.tx, s.estat, s.flt)) (exec .feClose base) = some ([], .idle, 2) := by
  decide

/-- R100. -/
theorem test_fd_clr :
    get (fun s => (s.flen, s.dstat, s.res, s.fb)) (exec .fdClr { base with dstat := .ok }) = some (0, .ok, 7, base.fb) := by
  decide

/-- R101: the eighth push. -/
theorem test_fd_push_eighth :
    get (fun s => (s.flen, s.fb)) (exec (.fdPush 0xAB) { base with flen := 7 }) =
      some (8, { base.fb with b7 := 0xAB }) := by
  decide

/-- R101: the ninth and the tenth push. -/
theorem test_fd_push_ninth :
    get (fun s => (s.flen, s.fb)) (exec (.fdPush 0xAB) base) = some (9, base.fb) ∧
      get (fun s => (s.flen, s.fb)) (exec (.fdPush 0xAB) { base with flen := 9 }) = some (9, base.fb) := by
  decide

/-- V24. -/
theorem test_fd_dec_substitutes :
    get (fun s => ((s.dstat, s.res, [s.alarm0, s.alarm1, s.alarm2], s.aerr), s.calcReg, s.recvReg, s.ckv, s.acc))
      (exec .fdDec (framed ⟨0x7B, 0x00, 0x64, 0x4F, 0x80, 0x20, 0xF0, 0x7D⟩)) =
        some ((.ok, 100, [0x45, 0x52, 0x52], true), 0xF0, 0xF0, true, 0x3B) := by
  decide

/-- V20, V16, V19. -/
theorem test_fd_dec_errors :
    get State.dstat (exec .fdDec (framed ⟨0x7A, 0x00, 0x64, 0x4F, 0x4B, 0x20, 0x3B, 0x7D⟩)) = some .framingErr ∧
      get State.dstat (exec .fdDec { base with flen := 7 }) = some .lengthErr ∧
      get State.dstat (exec .fdDec { framed ⟨0, 0, 0, 0, 0, 0, 0, 0⟩ with flen := 7 }) = some .lengthErr := by
  decide

/-- V30. -/
theorem test_fd_decx_repairs :
    get (fun s => ((s.dstat, s.res, [s.alarm0, s.alarm1, s.alarm2], s.aerr), s.calcReg, s.recvReg, s.ckv, s.fb.b0))
      (exec .fdDecx (framed ⟨0x00, 0xAA, 0xCE, 0xE5, 0xE1, 0x8A, 0x91, 0xFF⟩)) =
        some ((.ok, 100, [0x4F, 0x4B, 0x20], false), 0x3B, 0x3B, true, 0x00) := by
  decide

/-- V33. -/
theorem test_fd_decx_mismatch :
    get (fun s => (s.calcReg, s.recvReg, s.ckv))
      (exec .fdDecx (framed ⟨0xD1, 0xAA, 0xCE, 0xE5, 0xE1, 0x8A, 0x3B, 0xD7⟩)) = some (0x3B, 0x91, false) := by
  decide

/-- The example of R131. -/
theorem test_rx_start :
    get (fun s => (s.rstat, s.rlen)) (exec .rxStart { base with rstat := .done, rlen := 5 }) = some (.recv, 0) := by
  decide

/-- The example of R132, and the same byte with `last = 0` (V46's sixth). -/
theorem test_rx_put :
    get (fun s => (s.rstat, s.rlen, s.rbuf.map Prod.snd)) (exec (.rxPut 0xFF true) receiving) =
        some (.done, 5, [0x68, 0x65, 0x6C, 0x6C, 0x6F, 0xFF, 0xFF]) ∧
      get (fun s => (s.rstat, s.rlen)) (exec (.rxPut 0xFF false) receiving) = some (.recv, 7) := by
  decide

/-- V53's lone `FF`, V56's byte after the end, R137 at the default `BUF_CAP`, V61's last byte at `BUF_CAP = 4`. -/
theorem test_rx_put_boundaries :
    get (fun s => (s.rstat, s.rlen)) (exec (.rxPut 0xFF true) { base with rstat := .recv }) = some (.recv, 1) ∧
      get (fun s => (s.flt, s.rbuf)) (exec (.rxPut 0x41 true) { base with rstat := .done }) = some (2, []) ∧
      get (fun s => (s.flt, s.rlen, s.rstat)) (exec (.rxPut 0x41 true) { base with rstat := .recv, rlen := 65535 }) =
        some (4, 65535, .recv) ∧
      (rxPutWith { Config.params with bufCap := 4 } 0xFF true
        { base with rstat := .recv, rlen := 4, rbuf := [(0, 1), (1, 2), (2, 3), (3, 0xFF)] }).flt = 4 := by
  decide

/-- The example of R138, and V57. -/
theorem test_rx_tmo :
    get (fun s => (s.rstat, s.rlen)) (exec .rxTmo receiving) = some (.timeout, 6) ∧
      get (fun s => (s.rstat, s.flt)) (exec .rxTmo { receiving with rstat := .done }) = some (.done, 0) := by
  decide

/-- The example of R139. -/
theorem test_rx_rdb :
    get (fun s => (s.dout, s.rlen)) (exec (.rxRdb 4) { receiving with rlen := 5 }) = some (0x006F, 5) ∧
      get State.flt (exec (.rxRdb 5) { receiving with rlen := 5 }) = some 8 := by
  decide

/-- V23. -/
theorem test_wire_frame :
    get (fun s => (s.dstat, s.res, [s.alarm0, s.alarm1, s.alarm2], s.ckv, s.flen))
      (exec (.wireFrame ⟨0x7B, 0x01, 0x00, 0x41, 0x4C, 0x4D, 0x3A, 0x7D⟩) base) =
        some (.ok, 256, [0x41, 0x4C, 0x4D], true, 8) := by
  decide

/-- V29. -/
theorem test_wire_encrypted_frame :
    get (fun s => (s.dstat, s.res, [s.alarm0, s.alarm1, s.alarm2], s.ckv, s.fb.b0))
      (exec (.wireEncryptedFrame ⟨0xD1, 0xAA, 0xCE, 0xE5, 0xE1, 0x8A, 0x91, 0xD7⟩) { base with flen := 9 }) =
        some (.ok, 100, [0x4F, 0x4B, 0x20], true, 0xD1) := by
  decide

/-- S9. -/
theorem test_cmd_adjust :
    get (fun s => (s.tx, s.estat, s.flt)) (exec (.cmdAdjust 10 500 2) base) =
      some ([0x7B, 0x01, 0x00, 0x0A, 0x01, 0xF4, 0x00, 0x02, 0x7D], .idle, 0) := by
  decide

/-- V35 to V37. -/
theorem test_cmd_modes :
    get (fun s => (s.tx, s.estat)) (exec .cmdStream base) = some ([0x7B, 0x02, 0x7D], .idle) ∧
      get (fun s => (s.tx, s.estat)) (exec .cmdXstream base) = some ([0x7B, 0x03, 0x7D], .idle) ∧
      get (fun s => (s.tx, s.estat)) (exec .cmdFile base) = some ([0x7B, 0x04, 0x7D], .idle) := by
  decide

/-- V44: the opening is refused and the close goes on. -/
theorem test_cmd_inside_a_command :
    get (fun s => (s.tx, s.estat, s.flt)) (exec .cmdStream opened) = some ([0x7D], .idle, 2) := by decide

/-- V47's second append. -/
theorem test_wire_sentinel :
    get (fun s => (s.rstat, s.rlen, s.flt)) (exec .wireSentinel { receiving with rlen := 5 }) = some (.done, 5, 0) := by
  decide

/-- V70, V72 to V74, V76, V77. -/
theorem test_illegal_words :
    get State.flt (stepOn 0x020000 base) = some 1 ∧ get State.flt (stepOn 0x000001 base) = some 1 ∧
      get (fun s => (s.flt, s.acc)) (stepOn 0x100001 base) = some (1, 0x3B) ∧
      get (fun s => (s.flt, s.acc)) (stepOn 0x110155 { base with acc := 0 }) = some (1, 0) ∧
      get State.flt (stepOn 0x510241 base) = some 1 ∧ get State.flt (stepOn 0x0F0001 { base with flt := 1 }) = some 1 := by
  decide

/-- V79. -/
theorem test_faults_accumulate :
    get State.flt (stepOn 0x510141 { base with flt := 2 }) = some 2 ∧
      get State.flt (stepOn 0x530000 { base with flt := 2 }) = some 0xA := by
  decide

/-- The bytes of a message that is none are refused (log 10). -/
theorem test_no_message_is_refused : step (present (.message [0x7B]) base) = .refused .notAMessage := rfl

/-- S2 and the parity law of V14b. -/
theorem test_checksum_function :
    checksum [0x7B, 0x00, 0x64, 0x4F, 0x4B, 0x20] = 0x3B ∧ checksum [0xD1, 0xAA, 0xCE, 0xE5, 0xE1, 0x8A] = 0x3B ∧
      checksum [0xD1, 0xAA, 0xCE] = 0xB5 := by
  decide

/-- S7, V49, V52, S8. -/
theorem test_receive_file_function :
    receiveFile [[0x68, 0x65], [], [0x6C, 0x6C, 0x6F, 0xFF], [0xFF], [0x41]] = ⟨[0x68, 0x65, 0x6C, 0x6C, 0x6F], false⟩ ∧
      receiveFile [[0x41, 0xFF, 0xFF, 0x42]] = ⟨[0x41, 0xFF, 0xFF, 0x42], true⟩ ∧
      receiveFile [[0xFF, 0xFF, 0xFF]] = ⟨[0xFF], false⟩ ∧ receiveFile [[0xFF]] = ⟨[0xFF], true⟩ := by
  decide

/-- R168: from reset, each procedure of R114 to R120 begins a use of the block as R169 asks. -/
theorem test_reset_launches_every_procedure :
    Launch .checksum (checksumProc [0x7B]) State.reset ∧ Launch .frame (decodeOps [0x7B]) State.reset ∧
      Launch .command (encodeProc 0x02 []) State.reset ∧
      Launch .reception (.rxStart :: appendProc [0xFF, 0xFF]) State.reset :=
  ⟨⟨.reset 0 [], rfl, rfl, _, _, rfl, rfl⟩, ⟨.reset 0 [], rfl, rfl, _, _, rfl, rfl⟩,
    ⟨.reset 0 [], rfl, rfl, _, _, rfl, rfl⟩, ⟨.reset 0 [], rfl, rfl, _, _, rfl, rfl⟩⟩

/-- R169: an argument without its `FE.OPEN` is no start of use, and after a fault there is no launch. -/
theorem test_no_launch :
    Use.beginsWith .command (.feArg8 0x01) = false ∧ ¬ Launch .command (encodeProc 0x02 []) { base with flt := 1 } :=
  ⟨rfl, fun h => absurd h.noFault (by decide)⟩

/-- R129: a failed open ends the run, and a start afterwards changes nothing. -/
theorem test_failed_open :
    (sessionRun [.openFailed, .openOk, .start] ⟨.stream, false, .idle, base, [], []⟩).phase = .exited .connectError := by
  decide

/-- S7 through the host's reads (P5's steps 9 to 12), and S5's length error (V16). -/
theorem test_procedures_read :
    (match (decodeProc [0x7B, 0x00, 0x64, 0x4F, 0x4B, 0x20, 0x3B]).run base with
      | .next r => some r.value
      | .fault _ => none
      | .refused _ => none) = some (.error .lengthError) ∧
    (match (receiveProc [[0x68, 0x65], [0x6F, 0xFF], [0xFF]]).run base with
      | .next r => some r.value
      | .fault _ => none
      | .refused _ => none) = some ⟨[0x68, 0x65, 0x6F], false⟩ :=
  ⟨rfl, by decide⟩

/-! ### Witnesses: a state and operands that meet the hypotheses of each statement -/

/-- A state with the invariant that is not at rest: a decoded frame, one received byte, a word presented. -/
def busy : State :=
  { base with
    dstat := .ok, res := 100, alarm0 := 0x4F, alarm1 := 0x4B, alarm2 := 0x20, calcReg := 0x3B, recvReg := 0x3B
    ckv := true, rstat := .recv, rlen := 1, rbuf := [(0, 0xFF)], presented := [.word 0x5101FF] }

theorem test_busy_inv : Inv busy where
  pushCount := by decide
  canonical := by decide
  addresses := by decide
  received := by decide
  idleEmpty := by decide
  results _ := ⟨by decide, by decide, by decide⟩

theorem test_witness_StepKeepsTheInvariant :
    ∃ s s', Inv s ∧ step s = .next s' ∧ s'.rstat = .done ∧ s'.rlen = 0 :=
  ⟨busy, _, test_busy_inv, rfl, rfl, rfl⟩

theorem test_witness_StepRunsTheDecodedInstruction :
    ({ base with presented := [.word 0x11007B, .word 0x000000] } : State).presented = [.word 0x11007B, .word 0x000000] ∧
      decode (.word 0x11007B) = .ok (.bccAbs 0x7B) := by
  decide

theorem test_witness_NothingPresentedNothingChanges : base.presented = [] := rfl

theorem test_witness_IllegalWordRaisesIllAndNothingElse :
    (¬ ∃ i, decodeWord 0x020000 = .ok i) ∧ ¬ ∃ i, decodeWord 0x110155 = .ok i := by
  have h : decodeWord 0x020000 = .error .illegalOp ∧ decodeWord 0x110155 = .error .reservedOperandBits := by decide
  constructor
  · rintro ⟨i, e⟩
    cases h.1.symm.trans e
  · rintro ⟨i, e⟩
    cases h.2.symm.trans e

theorem test_witness_DecodeOfEncodeIsTheInstruction : (Instr.rxPut 0xFF true).wellFormed = true := by decide

theorem test_witness_EncodeOfDecodeIsThePresentation :
    decode (.word 0x5101FF) = .ok (.rxPut 0xFF true) ∧ decode (.message [0xFF, 0xFF]) = .ok .wireSentinel := by decide

theorem test_witness_TableWordIsRunByTheNextStep : decodeTableWord 24 0x11007B = some (.bccAbs 0x7B) := by decide

theorem test_witness_PresentedProgramRunsInOrder :
    ∀ i ∈ [Instr.bccClr, .bccAbs 0x7B, .cmdFile], i.wellFormed = true := by decide

theorem test_witness_MessageDoesWhatItsOperationsDo : isOperation .wireSentinel = false := rfl

/-- The reserved bits of form `N`: `NOP`, `RST`, `BCC.CLR`, `FE.CLOSE`, `FD.CLR`, `FD.DEC`, `FD.DECX`, `RX.START`,
`RX.TMO`. -/
theorem test_witness_reserved_bits_of_N : (0x0001 : Half) ≠ 0 ∧ (0x8000 : Half) ≠ 0 := by decide

/-- The reserved bits of form `B`: `BCC.ABS`, `XC.BYTE`, `FE.OPEN`, `FE.ARG8`, `FD.PUSH`; of `BL`: `RX.PUT`; of `R`:
`RD`. Lowest reserved bit of each. -/
theorem test_witness_reserved_bits_of_B_BL_R :
    (0x0100 : Half).extractLsb' 8 8 ≠ 0 ∧ (0x0200 : Half).extractLsb' 9 7 ≠ 0 ∧ (0x0010 : Half).extractLsb' 4 12 ≠ 0 := by
  decide

theorem test_witness_RdReturnsTheNumberedRegister :
    [StatusReg.acc, .key, .flen, .dstat, .res, .alarm0, .alarm1, .alarm2, .calcReg, .recvReg, .ckv, .aerr, .estat,
        .rstat, .rlen, .flt][(0 : BitVec 4).toNat]? = some .acc ∧
      [StatusReg.acc, .key, .flen, .dstat, .res, .alarm0, .alarm1, .alarm2, .calcReg, .recvReg, .ckv, .aerr, .estat,
        .rstat, .rlen, .flt][(15 : BitVec 4).toNat]? = some .flt := by
  decide

theorem test_witness_AccumulatorHoldsTheFoldSinceTheClear :
    ∃ r, base.acc = checksum [0x3B] ∧ runProgram [.bccAbs 0x3B, .nop] base = .next r ∧ r.final.acc = 0 :=
  ⟨_, by decide, rfl, by decide⟩

theorem test_witness_ChecksumIgnoresOrderAndSplits :
    [(0x12 : Byte), 0x34].Perm [0x34, 0x12] ∧ [(0x12 : Byte), 0x34].length % 2 = 0 ∧ [(0x12 : Byte)].length % 2 = 1 := by
  decide

/-- `FE.OPEN`, `FE.ARG8`, `FE.ARG16`, `FE.CLOSE`, both cases; the Commands, the encode sequence. -/
theorem test_witness_encoder_states : base.estat = .idle ∧ opened.estat = .opened := by decide

theorem test_witness_EncodeSequenceEmitsTheCommand :
    ∃ r, base.estat = .idle ∧ runProgram (encodeProc 0x02 []) base = .next r ∧ r.tx = [0x7B, 0x02, 0x7D] :=
  ⟨_, rfl, rfl, by decide⟩

theorem test_witness_OnlyTheEncoderEmits : emits .wireSentinel = false ∧ Instr.wireSentinel ≠ .rst := by decide

theorem test_witness_CommandMessagesAreSentByteForByte : base.estat = .idle := rfl

/-- The last length that takes a byte, the first that does not, and saturation. -/
theorem test_witness_FdPushAppendsOrSaturates :
    ({ base with flen := 7 } : State).flen < 8 ∧ 8 ≤ base.flen ∧ 8 ≤ ({ base with flen := 9 } : State).flen := by decide

/-- Lengths 7 and 9; each wrong delimiter; the good frame. -/
theorem test_witness_FdDecDecodesThePlainFrame :
    ({ base with flen := 7 } : State).flen ≠ 8 ∧ ({ base with flen := 9 } : State).flen ≠ 8 ∧
      ((framed { base.fb with b0 := 0x7A }).flen = 8 ∧ (framed { base.fb with b0 := 0x7A }).fb.b0 ≠ 0x7B) ∧
      ((framed { base.fb with b7 := 0x7B }).flen = 8 ∧ (framed { base.fb with b7 := 0x7B }).fb.b7 ≠ 0x7D) ∧
      base.flen = 8 ∧ base.fb.b0 = 0x7B ∧ base.fb.b7 = 0x7D := by
  decide

theorem test_witness_FdDecxDecodesTheDecipheredFrame :
    ({ base with flen := 7 } : State).flen ≠ 8 ∧ base.flen = 8 ∧ (0x64 : Byte) = 0xCE ^^^ 0xAA := by decide

theorem test_witness_EncryptedDecodeNeverReportsFraming :
    base.flen = 8 ∧ ({ base with flen := 0 } : State).flen ≠ 8 := by decide

theorem test_witness_EncryptedDecodeOfCipherEqualsPlainDecode : base.fb.delimited = true := by decide

/-- S4. -/
theorem test_witness_ChecksumMismatchIsAResultNotAnError :
    let s := framed ⟨0x7B, 0x00, 0x64, 0x4F, 0x4B, 0x20, 0x00, 0x7D⟩
    s.flen = 8 ∧ s.fb.b0 = 0x7B ∧ s.fb.b7 = 0x7D ∧
      s.fb.b6 ≠ s.fb.b0 ^^^ s.fb.b1 ^^^ s.fb.b2 ^^^ s.fb.b3 ^^^ s.fb.b4 ^^^ s.fb.b5 := by
  decide

/-- V33. -/
theorem test_witness_UnencipheredChecksumByteMismatches :
    let s := framed ⟨0xD1, 0xAA, 0xCE, 0xE5, 0xE1, 0x8A, 0x3B, 0xD7⟩
    s.flen = 8 ∧ s.fb.b0 = 0x7B ^^^ 0xAA ∧
      (0x3B : Byte) = s.fb.b0 ^^^ s.fb.b1 ^^^ s.fb.b2 ^^^ s.fb.b3 ^^^ s.fb.b4 ^^^ s.fb.b5 ∧ s.fb.b6 = 0x3B := by
  decide

theorem test_witness_TextValidityDecidesTheAlarmFieldAlone :
    Config.params.key = ({ Config.params with textValid := fun _ => true } : Config.Params).key := rfl

theorem test_witness_ResultsChangeOnlyByDecodeOrReset : writesResults (.fdPush 0x7B) = false := rfl

/-- Before the first byte; at one `FF` with another coming; the last free place, and a sentinel that ends there, at the
default capacity; outside `RECV`; a full buffer. -/
theorem test_witness_RxPutAppendsAndTestsTheSentinel :
    (let s : State := { base with rstat := .recv }
     s.rstat = .recv ∧ s.rlen < Config.params.bufCap ∧ ¬ 1 ≤ s.rlen.toNat) ∧
    (busy.rstat = .recv ∧ busy.rlen < Config.params.bufCap ∧ 1 ≤ busy.rlen.toNat ∧
      busy.rbufByte (busy.rlen.toNat - 1) = 0xFF) ∧
    (let s : State := { base with rstat := .recv, rlen := 65534, rbuf := [(65533, 0xFF)] }
     s.rstat = .recv ∧ s.rlen < Config.params.bufCap ∧ 1 ≤ s.rlen.toNat ∧ s.rbufByte (s.rlen.toNat - 1) = 0xFF) ∧
    base.rstat ≠ .recv ∧
    (let s : State := { base with rstat := .recv, rlen := 65535 }
     s.rstat = .recv ∧ s.rlen = Config.params.bufCap) := by
  decide

theorem test_witness_FullBufferDropsTheByte :
    busy.rstat = .recv ∧ busy.rlen = ({ Config.params with bufCap := 1 } : Config.Params).bufCap := by decide

theorem test_witness_RxTmoEndsARunningReception : busy.rstat = .recv ∧ base.rstat ≠ .recv := by decide

/-- The last readable address, the first beyond, and reset. -/
theorem test_witness_RxRdbAnswersAReceivedByte :
    (0 : Half) < busy.rlen ∧ busy.rlen ≤ (1 : Half) ∧ State.reset.rstat = .idle := by decide

/-- Reset has the invariant, for the clause about the idle receiver. -/
theorem test_witness_RxRdb_idle : Inv State.reset ∧ State.reset.rstat = .idle :=
  ⟨⟨by decide, rfl, by decide, by decide, by decide, fun h => DStat.noConfusion h⟩, rfl⟩

theorem test_witness_OnlyRxPutStoresReceivedBytes : storesReceived .rxStart = false ∧ storesReceived .wireSentinel = true := by
  decide

/-- Empty, and the last length with room for both bytes. -/
theorem test_witness_SentinelMessageEndsTheReception :
    ({ base with rstat := .recv } : State).rstat = .recv ∧ ({ base with rstat := .recv } : State).rlen < 65534 ∧
      ({ base with rstat := .recv, rlen := 65533 } : State).rlen < 65534 := by
  decide

theorem test_witness_ReceiveSequenceEqualsReceiveFile :
    [[(0x68 : Byte)], [], [0xFF, 0xFF]].flatten.length ≤ 65535 := by decide

theorem test_witness_TimeoutIsLeftOnlyByStartOrReset :
    ({ base with rstat := .timeout } : State).rstat = .timeout ∧ Instr.wireSentinel ≠ .rxStart ∧
      Instr.wireSentinel ≠ .rst := by
  decide

theorem test_witness_FaultBitsOnlyAccumulate : Instr.feClose ≠ .rst := by decide

theorem test_witness_FaultingOperationDoesNothingElse :
    ∃ t, isOperation .feClose = true ∧ Instr.feClose ≠ .rst ∧ exec .feClose base = .next t ∧ t.flt ≠ base.flt :=
  ⟨_, rfl, by decide, rfl, by decide⟩

theorem test_witness_BehaviourDoesNotDependOnFaults : Instr.rd .acc ≠ .rd .flt := by decide

theorem test_witness_OperationsThatNeverFail :
    Instr.rxTmo ∈ [Instr.bccClr, .fdClr, .fdDec, .fdDecx, .rxStart, .rxTmo, .nop] := by decide

/-- A session in a given mode and phase. -/
def session (mode : Mode) (phase : Phase) : Session := ⟨mode, true, phase, base, [], []⟩

/-- The port open and the start; the port not open; the Command sent. -/
theorem test_witness_SessionStartSendsTheCommand :
    ((session .stream .idle).phase = .idle ∧ (session .stream .idle).portOpen = true ∧
        (session .stream .idle).block.estat = .idle) ∧
      (let x : Session := { session .file .idle with portOpen := false }
       x.phase = .idle ∧ x.portOpen = false) ∧
      (session (.adjust 10 500 2) .commandSent).phase = .commandSent := by
  decide

theorem test_witness_StreamingYieldsEveryDecodedFrame :
    (session .stream .receiving).phase = .receiving ∧ base.fb.bytes.length = 8 ∧ (session .stream .receiving).mode = .stream := by
  decide

/-- A read one short, a failed read, the stop request. -/
theorem test_witness_StreamingEndsOnlyByTheCaller :
    (session .encryptedStream .receiving).phase = .receiving ∧
      (session .encryptedStream .receiving).mode = .encryptedStream ∧ HostEvent.readFailed ≠ .stop ∧
      HostEvent.read [0, 0, 0, 0, 0, 0, 0] = .read [0, 0, 0, 0, 0, 0, 0] ∧ [(0 : Byte), 0, 0, 0, 0, 0, 0].length ≠ 8 := by
  decide

theorem test_witness_FileSessionYieldsTheReceivedFile :
    (session .file .commandSent).phase = .commandSent ∧ (session .file .commandSent).mode = .file ∧
      [[(0x41 : Byte)], [0xFF, 0xFF]].flatten.length ≤ 65535 := by
  decide

end Tests
end Sys2Proof
end

section
/-! SUPPORT. Decoding undoes encoding, and an operation word that decodes is the encoding of its instruction. -/

namespace Sys2Proof

/-- No byte is its own encipherment, so a plain delimiter tells a Frame from an EncryptedFrame. -/
theorem FrameImage.not_delimited_of_enciphered {raw : FrameImage} (h : raw.delimitedEnciphered = true) :
    raw.delimited = false := by
  simp only [FrameImage.delimitedEnciphered, Bool.and_eq_true, beq_iff_eq] at h
  have hne : (Config.sof ^^^ Config.key == Config.sof) = false := by decide
  rw [FrameImage.delimited, h.1, hne, Bool.false_and]

theorem decodeMessage_bytes (raw : FrameImage) : decodeMessage raw.bytes = decodeFrameMessage raw := rfl

/-- An encoded operation decodes as its `op` and its operand do. -/
theorem decode_word_opWord (op : Byte) (opd : Half) : decode (.word (opWord op opd)) = decodeOp op opd :=
  decodeWord_append op opd

/-- No bit of an encoding is dropped. -/
theorem decode_encode {i : Instr} (h : i.wellFormed = true) : decode (encode i) = .ok i := by
  cases i with
  | rd r => exact (decode_word_opWord _ _).trans (formR_opdR .rd r)
  | bccAbs b => exact (decode_word_opWord _ _).trans (formB_opdB .bccAbs b)
  | xcByte b => exact (decode_word_opWord _ _).trans (formB_opdB .xcByte b)
  | feOpen b => exact (decode_word_opWord _ _).trans (formB_opdB .feOpen b)
  | feArg8 b => exact (decode_word_opWord _ _).trans (formB_opdB .feArg8 b)
  | fdPush b => exact (decode_word_opWord _ _).trans (formB_opdB .fdPush b)
  | feArg16 v => exact decode_word_opWord 0x32 v
  | rxRdb a => exact decode_word_opWord 0x53 a
  | rxPut b last => exact (decode_word_opWord _ _).trans (formBL_opdBL .rxPut b last)
  | wireFrame raw =>
    have hd : raw.delimited = true := h
    exact (decodeMessage_bytes raw).trans (if_pos hd)
  | wireEncryptedFrame raw =>
    have he : raw.delimitedEnciphered = true := h
    have hd := FrameImage.not_delimited_of_enciphered he
    exact (decodeMessage_bytes raw).trans (by simp [decodeFrameMessage, hd, he])
  | cmdAdjust lower upper frequency => simp [encode, decode, decodeMessage]
  | nop | rst | bccClr | feClose | fdClr | fdDec | fdDecx | rxStart | rxTmo => decide
  | cmdStream | cmdXstream | cmdFile | wireSentinel => decide

/-- An `op` and an operand that decode are the halves the encoder writes. -/
theorem encode_of_decodeOp {op : Byte} {opd : Half} {i : Instr} (h : decodeOp op opd = .ok i) :
    encode i = .word (opWord op opd) := by
  have op_eq : ∀ n : Byte, op.toNat = n.toNat → op = n := fun _ => BitVec.eq_of_toNat_eq
  unfold decodeOp at h
  split at h
  case h_1 ho => obtain ⟨rfl, rfl⟩ := opd_of_formN h; rw [op_eq 0x00 ho]; rfl
  case h_2 ho => obtain ⟨r, rfl, rfl⟩ := opdR_of_formR h; rw [op_eq 0x01 ho]; rfl
  case h_3 ho => obtain ⟨rfl, rfl⟩ := opd_of_formN h; rw [op_eq 0x0F ho]; rfl
  case h_4 ho => obtain ⟨rfl, rfl⟩ := opd_of_formN h; rw [op_eq 0x10 ho]; rfl
  case h_5 ho => obtain ⟨b, rfl, rfl⟩ := opdB_of_formB h; rw [op_eq 0x11 ho]; rfl
  case h_6 ho => obtain ⟨b, rfl, rfl⟩ := opdB_of_formB h; rw [op_eq 0x20 ho]; rfl
  case h_7 ho => obtain ⟨b, rfl, rfl⟩ := opdB_of_formB h; rw [op_eq 0x30 ho]; rfl
  case h_8 ho => obtain ⟨b, rfl, rfl⟩ := opdB_of_formB h; rw [op_eq 0x31 ho]; rfl
  case h_9 ho => obtain rfl := Except.ok.inj h; rw [op_eq 0x32 ho]; rfl
  case h_10 ho => obtain ⟨rfl, rfl⟩ := opd_of_formN h; rw [op_eq 0x33 ho]; rfl
  case h_11 ho => obtain ⟨rfl, rfl⟩ := opd_of_formN h; rw [op_eq 0x40 ho]; rfl
  case h_12 ho => obtain ⟨b, rfl, rfl⟩ := opdB_of_formB h; rw [op_eq 0x41 ho]; rfl
  case h_13 ho => obtain ⟨rfl, rfl⟩ := opd_of_formN h; rw [op_eq 0x42 ho]; rfl
  case h_14 ho => obtain ⟨rfl, rfl⟩ := opd_of_formN h; rw [op_eq 0x43 ho]; rfl
  case h_15 ho => obtain ⟨rfl, rfl⟩ := opd_of_formN h; rw [op_eq 0x50 ho]; rfl
  case h_16 ho => obtain ⟨b, last, rfl, rfl⟩ := opdBL_of_formBL h; rw [op_eq 0x51 ho]; rfl
  case h_17 ho => obtain ⟨rfl, rfl⟩ := opd_of_formN h; rw [op_eq 0x52 ho]; rfl
  case h_18 ho => obtain rfl := Except.ok.inj h; rw [op_eq 0x53 ho]; rfl
  case h_19 => exact nomatch h

/-- An operation word that decodes is the encoding of what it decodes to. -/
theorem encode_of_decodeWord {w : OpWord} {i : Instr} (h : decodeWord w = .ok i) : encode i = .word w := by
  rw [encode_of_decodeOp h, opWord, opOf_append_opdOf]

namespace Machine

/-- What the encoder writes as an operation word is one of the eighteen operations. -/
theorem isOperation_of_encode_word {i : Instr} {w : OpWord} (h : encode i = .word w) : isOperation i = true := by
  cases i with
  | wireFrame | wireEncryptedFrame | cmdAdjust | cmdStream | cmdXstream | cmdFile | wireSentinel => exact nomatch h
  | _ => rfl

/-- An operation word never stands for a message. -/
theorem isOperation_of_decodeWord {w : OpWord} {i : Instr} (h : decodeWord w = .ok i) : isOperation i = true :=
  isOperation_of_encode_word (encode_of_decodeWord h)

end Machine
end Sys2Proof
end

section
/-! What one step does with what is presented: the step statements of the scope chapter. -/

namespace Sys2Proof
namespace Machine

theorem step_of_nothing_presented {s : State} (h : s.presented = []) : step s = .next s.silent := by
  simp [step, fetch, h, idle]

theorem step_present_of_decode_ok {p : Presentation} {i : Instr} (h : decode p = .ok i) (s : State) :
    step (present p s) = exec i s := by
  rw [step_present, h]

theorem decodeTableWord_eq_some {nbits w : Nat} {i : Instr} :
    decodeTableWord nbits w = some i ↔ decode (tablePresentation nbits w) = .ok i := by
  unfold decodeTableWord
  cases decode (tablePresentation nbits w) <;> simp

/-- An operation that is not the encoder's emits nothing (R60). -/
theorem operation_tx_of_not_emits {i : Instr} (h : isOperation i = true) (he : emits i = false) (s : State) :
    (after i s).tx = [] := by
  cases i with
  | fdPush b => rw [after, fdPush]; split <;> rfl
  | fdDec =>
    obtain ⟨q, e, v, n, hd⟩ := fdDec_eq Config.params s
    rw [after, hd]
  | fdDecx =>
    obtain ⟨q, e, v, n, hd⟩ := fdDecx_eq Config.params s
    rw [after, hd]
  | rxPut b last => rw [after, rxPutWith]; split_ifs <;> rfl
  | rxTmo => rw [after, rxTmo]; split <;> rfl
  | rxRdb a => rw [after, rxRdb]; split <;> rfl
  | feOpen | feArg8 | feArg16 | feClose => exact nomatch he
  | wireFrame | wireEncryptedFrame | cmdAdjust | cmdStream | cmdXstream | cmdFile | wireSentinel => exact nomatch h
  | _ => rfl

/-- An operation emits at most two bytes: the encoder's one or two, or none with a fault (R13, R91 to R94). -/
theorem operation_tx_length_le {i : Instr} (h : isOperation i = true) (s : State) : (after i s).tx.length ≤ 2 := by
  cases he : emits i with
  | false => simp [operation_tx_of_not_emits h he s]
  | true =>
    cases i with
    | feOpen b => rw [after, feOpen]; split <;> simp
    | feArg8 b => rw [after, feArg8]; split <;> simp
    | feArg16 v => rw [after, feArg16]; split <;> simp
    | feClose => rw [after, feClose]; split <;> simp
    | cmdAdjust | cmdStream | cmdXstream | cmdFile => exact nomatch h
    | _ => exact nomatch he

/-- Settles O6: a word that decodes runs an operation, and every other word raises ILL, which emits nothing. -/
theorem everyOperationWordHasAnOutcome : Obligations.EveryOperationWordHasAnOutcome := by
  intro w s
  cases hd : decodeWord w with
  | ok i =>
    refine ⟨after i s, ?_, operation_tx_length_le (isOperation_of_decodeWord hd) s⟩
    rw [stepOn_ok hd, exec_eq_next]
  | error r =>
    obtain ⟨d, n, hs⟩ := stepOn_error hd s
    exact ⟨_, hs, Nat.zero_le _⟩

/-- Settles O4: it is what a step does with a presentation that decodes. -/
theorem stepRunsTheDecodedInstruction : Obligations.StepRunsTheDecodedInstruction :=
  fun _ _ _ _ hp hd => step_of_decode_ok hp hd

/-- Settles O5: the idle step writes the outputs alone. -/
theorem nothingPresentedNothingChanges : Obligations.NothingPresentedNothingChanges :=
  fun _ h => ⟨_, _, step_of_nothing_presented h⟩

/-- Settles O11: the row's bits are presented, and decode as the table's reading of them does. -/
theorem tableWordIsRunByTheNextStep : Obligations.TableWordIsRunByTheNextStep :=
  fun _ _ _ s h => step_present_of_decode_ok (decodeTableWord_eq_some.1 h) s

end Machine
end Sys2Proof
end

section
/-! A presented program runs in program order: no instruction reads or changes what is still presented, so a run of
presentations is the run of the instructions they encode. -/

namespace Sys2Proof
namespace Machine

/-- An operation neither reads nor changes what is presented behind it. -/
theorem operation_with_presented {i : Instr} (h : isOperation i = true) (ps : List Presentation) (s : State) :
    after i { s with presented := ps } = { after i s with presented := ps } := by
  cases i with
  | feOpen b => simp only [after, feOpen]; split <;> rfl
  | feArg8 b => simp only [after, feArg8]; split <;> rfl
  | feArg16 v => simp only [after, feArg16]; split <;> rfl
  | feClose => simp only [after, feClose]; split <;> rfl
  | fdPush b => simp only [after, fdPush]; split <;> rfl
  | fdDec => simp only [after, fdDecWith, decodeCore]; split_ifs <;> rfl
  | fdDecx => simp only [after, fdDecxWith, decodeCore]; split_ifs <;> rfl
  | rxPut b last =>
    have hs : (State.append { s with presented := ps } b).sentinelSeen = (s.append b).sentinelSeen := rfl
    simp only [after, rxPutWith, hs]
    split_ifs <;> rfl
  | rxTmo => simp only [after, rxTmo]; split <;> rfl
  | rxRdb a => simp only [after, rxRdb]; split <;> rfl
  | wireFrame | wireEncryptedFrame | cmdAdjust | cmdStream | cmdXstream | cmdFile | wireSentinel => exact nomatch h
  | _ => rfl

/-- A run of operations that each leave the presented list alone leaves it alone. -/
theorem State.runOps_with_presented {ops : List (State → State)} {ps : List Presentation}
    (hops : ∀ op ∈ ops, ∀ t : State, op { t with presented := ps } = { op t with presented := ps }) (s : State) :
    State.runOps { s with presented := ps } ops = { s.runOps ops with presented := ps } := by
  suffices H : ∀ t : State, ops.foldl State.thenRun { t with presented := ps } =
      { ops.foldl State.thenRun t with presented := ps } from H { s with tx := [] }
  induction ops with
  | nil => exact fun _ => rfl
  | cons op ops ih =>
    intro t
    have hop : State.thenRun { t with presented := ps } op = { t.thenRun op with presented := ps } := by
      simp only [State.thenRun, hops op List.mem_cons_self]
    rw [List.foldl_cons, List.foldl_cons, hop]
    exact ih (fun o ho => hops o (List.mem_cons_of_mem _ ho)) _

/-- An instruction neither reads nor changes what is presented behind it. -/
theorem after_with_presented (i : Instr) (ps : List Presentation) (s : State) :
    after i { s with presented := ps } = { after i s with presented := ps } := by
  cases h : isOperation i with
  | true => exact operation_with_presented h ps s
  | false =>
    rw [after_message h, after_message h]
    refine State.runOps_with_presented (fun op hop => ?_) s
    obtain ⟨j, hj, rfl⟩ := List.mem_map.1 hop
    exact operation_with_presented (isOperation_of_mem_expand hj) ps

@[simp] theorem after_presented (i : Instr) (s : State) : (after i s).presented = s.presented :=
  (congrArg State.presented (after_with_presented i s.presented s) :)

/-- A step that takes an encoded instruction performs it and leaves the rest presented. -/
theorem step_encode_cons {i : Instr} (h : i.wellFormed = true) (ps : List Presentation) (s : State) :
    step { s with presented := encode i :: ps } = .next { after i s with presented := ps } := by
  rw [step_of_decode_ok rfl (decode_encode h), exec_eq_next, after_with_presented i ps s]

/-- Presenting the encodings of a program and stepping once for each is running the program. -/
theorem core_run_encode {is : List Instr} {s : State} {r : Run} (hwf : ∀ i ∈ is, i.wellFormed = true)
    (hr : runProgram is s = .next r) :
    Host.Core.run core is.length { s with presented := is.map encode ++ s.presented } = .next r.final := by
  induction is generalizing s r with
  | nil =>
    simp only [runProgram, Host.Outcome.next.injEq] at hr
    subst hr
    rfl
  | cons i is ih =>
    obtain ⟨q, hq⟩ := runProgram_ok is (after i s)
    obtain rfl := Host.Outcome.next.inj ((runProgram_cons hq).symm.trans hr)
    have hrest := ih (fun j hj => hwf j (List.mem_cons_of_mem _ hj)) hq
    rw [after_presented] at hrest
    exact (core_run_succ (step_encode_cons (hwf i List.mem_cons_self) _ s)).trans hrest

/-- Settles O12: every program has a run, and presenting its encodings makes the machine perform it. -/
theorem presentedProgramRunsInOrder : Obligations.PresentedProgramRunsInOrder := by
  intro is s hwf
  obtain ⟨r, hr⟩ := runProgram_ok is s
  exact ⟨r, hr, core_run_encode hwf hr⟩

end Machine
end Sys2Proof
end

section
/-! What an operation can do, said once: the cases of the eighteen operations of R62 with what each writes (R34).
What the operations keep, the messages keep too, because they stand for operations. -/

namespace Sys2Proof
namespace Machine

/-- What operation `i` can make of state `s`: its faults, its outputs, and the registers that R34 lets it write. -/
inductive OperationEffect (s : State) : Instr → State → Prop where
  /-- a fault sets its bit and nothing else (R152) -/
  | fault (i : Instr) (f : FaultBit) : OperationEffect s i (s.raiseFault f)
  /-- `NOP`, and `RX.TMO` outside `RECV` (R138, R143) -/
  | nothing (i : Instr) : OperationEffect s i s.silent
  /-- `RD`, `XC.BYTE` and `RX.RDB` answer a value (R86, R139, R144) -/
  | answer (i : Instr) (v : Half) : OperationEffect s i (s.answering v)
  /-- `RST` (R145) -/
  | reset : OperationEffect s .rst (State.atReset s.draws s.presented)
  /-- `BCC.CLR` (R80) -/
  | clear : OperationEffect s .bccClr { s with acc := 0 }.silent
  /-- `BCC.ABS` (R81) -/
  | absorb (b : Byte) : OperationEffect s (.bccAbs b) { s with acc := s.acc ^^^ b }.silent
  /-- the encoder's operations move `ESTAT` and emit (R91 to R94) -/
  | emit {i : Instr} (hi : emits i = true) (e : EStat) (bytes : List Byte) :
    OperationEffect s i ({ s with estat := e }.emitting bytes)
  /-- `FD.CLR` and `FD.PUSH` write `FB` and `FLEN`, which stays legal (R25, R100, R101) -/
  | buffer {i : Instr} (w : FrameImage) {n : BitVec 4} (hn : n.toNat ≤ 9) :
    OperationEffect s i { s with fb := w, flen := n }.silent
  /-- a decode that ends in an error (R103, R107) -/
  | decodeError {i : Instr} (hi : writesResults i = true) {d : DStat} (hd : d ≠ .ok) :
    OperationEffect s i (decodeFails d s)
  /-- a decode that returns a reading (R107) -/
  | decodeReading {i : Instr} (hi : writesResults i = true) (w : FrameImage) :
    OperationEffect s i (decodeSucceeds Config.params w s)
  /-- `RX.START` (R131) -/
  | startReception : OperationEffect s .rxStart { s with rlen := 0, rstat := .recv }.silent
  /-- `RX.PUT` into a reception that has room (R132) -/
  | store (b : Byte) (last : Bool) (hr : s.rstat = .recv) (hl : s.rlen ≠ 65535) :
    OperationEffect s (.rxPut b last) (s.append b).silent
  /-- `RX.PUT` of the byte that completes the sentinel (R132, R135) -/
  | endReception (b : Byte) (last : Bool) (hr : s.rstat = .recv) (hl : s.rlen ≠ 65535)
    (hs : (s.append b).sentinelSeen = true) :
    OperationEffect s (.rxPut b last) (s.append b).trimSentinel.silent
  /-- `RX.TMO` in `RECV` (R138) -/
  | timeOut (hr : s.rstat = .recv) : OperationEffect s .rxTmo { s with rstat := .timeout }.silent

theorem OperationEffect.of_decodeCore {i : Instr} (hi : writesResults i = true) (w : FrameImage) (s : State) :
    OperationEffect s i (decodeCore Config.params w s) := by
  unfold decodeCore
  split
  · exact .decodeError hi (by decide)
  · exact .decodeReading hi w

theorem OperationEffect.of_fdPush (b : Byte) (s : State) : OperationEffect s (.fdPush b) (fdPush b s) := by
  by_cases h : s.flen.toNat < 8
  · have hn : (s.flen + 1).toNat ≤ 9 := by
      rw [BitVec.toNat_add]
      exact (Nat.mod_le _ _).trans (Nat.succ_le_succ (by omega : s.flen.toNat ≤ 8))
    rw [fdPush_lt b h]
    exact .buffer _ hn
  · rw [fdPush_ge b (Nat.le_of_not_lt h)]
    exact .buffer s.fb (by decide)

theorem OperationEffect.of_rxPut (b : Byte) (last : Bool) (s : State) :
    OperationEffect s (.rxPut b last) (rxPutWith Config.params b last s) := by
  unfold rxPutWith
  split_ifs with hr hl ht
  · exact .fault _ _
  · exact .fault _ _
  · exact .endReception b last (not_not.1 hr) hl (Bool.and_eq_true_iff.1 ht).2
  · exact .store b last (not_not.1 hr) hl

/-- What an operation answers is one of the effects it can have. -/
theorem operation_effect {i : Instr} (h : isOperation i = true) (s : State) : OperationEffect s i (after i s) := by
  cases i with
  | nop => exact .nothing _
  | rd r => exact .answer _ _
  | rst => exact .reset
  | bccClr => exact .clear
  | bccAbs b => exact .absorb b
  | xcByte b => exact .answer _ _
  | feOpen b => rw [after, feOpen]; split; exacts [.fault _ _, .emit rfl _ _]
  | feArg8 b => rw [after, feArg8]; split; exacts [.fault _ _, .emit rfl s.estat _]
  | feArg16 v => rw [after, feArg16]; split; exacts [.fault _ _, .emit rfl s.estat _]
  | feClose => rw [after, feClose]; split; exacts [.fault _ _, .emit rfl _ _]
  | fdClr => exact .buffer s.fb (n := 0) (by decide)
  | fdPush b => exact .of_fdPush b s
  | fdDec => rw [after, fdDecWith]; split; exacts [.decodeError rfl (by decide), .of_decodeCore rfl _ s]
  | fdDecx => rw [after, fdDecxWith]; split; exacts [.decodeError rfl (by decide), .of_decodeCore rfl _ s]
  | rxStart => exact .startReception
  | rxPut b last => exact .of_rxPut b last s
  | rxTmo => rw [after, rxTmo]; split; exacts [.timeOut ‹_›, .nothing _]
  | rxRdb a => rw [after, rxRdb]; split; exacts [.fault _ _, .answer _ _]
  | wireFrame | wireEncryptedFrame | cmdAdjust | cmdStream | cmdXstream | cmdFile | wireSentinel => exact nomatch h

/-- A property that every effect of the operations of a class keeps, every instruction keeps that stands for operations
of that class. -/
theorem after_keeps_of_effects {P : State → Prop} {i : Instr} {s : State}
    (htx : ∀ (t : State) (bytes : List Byte), P t → P { t with tx := bytes })
    (hops : ∀ j ∈ expand i, ∀ t u, OperationEffect t j u → P t → P u) (hs : P s) : P (after i s) :=
  after_keeps htx (fun j hj t ht => hops j hj t _ (operation_effect (isOperation_of_mem_expand hj) t) ht) hs

/-- An instruction outside a class stands for operations outside it, when the class holds `i` as soon as it holds one of
them. -/
theorem class_of_mem_expand {C : Instr → Bool} {i j : Instr} (hany : (expand i).any C = C i) (hi : C i = false)
    (hj : j ∈ expand i) : C j = false := by
  simpa using List.any_eq_false.1 (hany.trans hi) j hj

end Machine
end Sys2Proof
end

section
/-! The invariant: it holds after every reset, and every step keeps it. -/

namespace Sys2Proof
namespace Machine

/-! ### What the parts of the state do to the invariant -/

/-- The invariant reads no register of the checksum unit or the encoder, no fault, no output and nothing presented. -/
theorem Inv.with_unread {s : State} (h : Inv s) (acc : Byte) (fb : FrameImage) (estat : EStat) (flt : BitVec 4)
    (tx : List Byte) (dout : Half) (presented : List Presentation) (draws : Nat) :
    Inv { s with acc, fb, estat, flt, tx, dout, presented, draws } :=
  { h with results := fun hd => { h.results hd with } }

theorem Inv.silent {s : State} (h : Inv s) : Inv s.silent := h.with_unread ..

theorem Inv.with_flen {s : State} (h : Inv s) {n : BitVec 4} (hn : n.toNat ≤ 9) : Inv { s with flen := n } :=
  { h with pushCount := hn, results := fun hd => { h.results hd with } }

/-- A failed decode leaves results that nothing is claimed of. -/
theorem Inv.decodeFails {s : State} (h : Inv s) {d : DStat} (hd : d ≠ .ok) : Inv (decodeFails d s) :=
  { h with results := fun he => absurd he hd }

/-- `AERR` set means that the three bytes were substituted (R23, R106). -/
theorem alarmField_of_aerr {valid : Byte → Bool} {a0 a1 a2 : Byte} (h : (alarmField valid a0 a1 a2).aerr = true) :
    alarmField valid a0 a1 a2 = ⟨Config.err0, Config.err1, Config.err2, true⟩ := by
  unfold alarmField at h ⊢
  split at h
  · exact nomatch h
  · exact if_neg ‹_›

/-- `AERR` clear means that the three bytes passed the text test and stand as they are (R23, R106). -/
theorem alarmField_of_not_aerr {valid : Byte → Bool} {a0 a1 a2 : Byte}
    (h : (alarmField valid a0 a1 a2).aerr = false) :
    alarmField valid a0 a1 a2 = ⟨a0, a1, a2, false⟩ ∧ valid a0 = true ∧ valid a1 = true ∧ valid a2 = true := by
  unfold alarmField at h ⊢
  split at h
  case isTrue hv => exact ⟨if_pos hv, by simpa [and_assoc] using hv⟩
  case isFalse => exact nomatch h

theorem ResultsConsistent.decodeSucceeds (w : FrameImage) (s : State) :
    ResultsConsistent (decodeSucceeds Config.params w s) where
  checksumFlag := rfl
  substituted h := by
    have hf := alarmField_of_aerr h
    simp only [Machine.decodeSucceeds, State.silent_alarm0, State.silent_alarm1, State.silent_alarm2, hf]
    rfl
  passedThrough h := by
    obtain ⟨hf, h0, h1, h2⟩ := alarmField_of_not_aerr h
    simp only [Machine.decodeSucceeds, State.silent_alarm0, State.silent_alarm1, State.silent_alarm2, hf]
    exact ⟨of_decide_eq_true h0, of_decide_eq_true h1, of_decide_eq_true h2⟩

theorem Inv.decodeSucceeds {s : State} (h : Inv s) (w : FrameImage) : Inv (decodeSucceeds Config.params w s) :=
  { h with results := fun _ => .decodeSucceeds w s }

theorem Inv.startReception {s : State} (h : Inv s) : Inv { s with rlen := 0, rstat := .recv } :=
  { h with
    received := fun _ ha => absurd ha (Nat.not_lt_zero _)
    idleEmpty := fun hi => nomatch hi
    results := fun hd => { h.results hd with } }

/-- The byte goes to the address `RLEN`, which is below the capacity, and every byte below the new length is received
(R43, R132). -/
theorem Inv.append {s : State} (h : Inv s) (b : Byte) (hr : s.rstat = .recv) (hl : s.rlen ≠ 65535) :
    Inv (s.append b) where
  pushCount := h.pushCount
  canonical := Memory.wf_write _ _ h.canonical
  addresses c hc := by
    rcases Memory.mem_write hc with rfl | hc
    · have := s.rlen.isLt
      have : s.rlen.toNat ≠ 65535 := fun e => hl (BitVec.eq_of_toNat_eq e)
      show s.rlen.toNat < 65535
      omega
    · exact h.addresses c hc
  received a ha := by
    rw [append_length b hl] at ha
    rw [State.append_rbuf]
    rcases Nat.lt_succ_iff_lt_or_eq.1 ha with ha | rfl
    · rw [Memory.lookup_write_ne _ _ (Nat.ne_of_lt ha)]
      exact h.received a ha
    · rw [Memory.lookup_write_self]
      rfl
  idleEmpty hi := by rw [State.append_rstat, hr] at hi; exact nomatch hi
  results hd := { h.results hd with }

/-- The trimmed buffer is a shorter one, because the sentinel is never seen in fewer than two bytes (R134, R135). -/
theorem Inv.trimSentinel {s : State} (h : Inv s) (hs : s.sentinelSeen = true) : Inv s.trimSentinel :=
  { h with
    received := fun a ha => by
      have h2 : 2 ≤ s.rlen.toNat := by
        simp only [State.sentinelSeen, Bool.and_eq_true, decide_eq_true_eq] at hs
        exact hs.1.1
      have hlen : (s.rlen - 2).toNat = s.rlen.toNat - 2 := BitVec.toNat_sub_of_le (BitVec.le_def.2 h2)
      have ha' : a < s.rlen.toNat - 2 := hlen ▸ ha
      exact h.received a (by omega)
    idleEmpty := fun hi => nomatch hi
    results := fun hd => { h.results hd with } }

theorem Inv.timeOut {s : State} (h : Inv s) : Inv { s with rstat := .timeout } :=
  { h with
    idleEmpty := fun hi => nomatch hi
    results := fun hd => { h.results hd with } }

theorem inv_atReset (draw : Nat) (presented : List Presentation) : Inv (State.atReset draw presented) where
  pushCount := Nat.zero_le _
  canonical := rfl
  addresses _ hc := nomatch hc
  received _ ha := absurd ha (Nat.not_lt_zero _)
  idleEmpty _ := rfl
  results hd := nomatch hd

/-! ### Operations, instructions, steps -/

theorem OperationEffect.keeps_inv {s t : State} {i : Instr} (he : OperationEffect s i t) (h : Inv s) : Inv t := by
  cases he with
  | fault | nothing | answer | clear | absorb | emit => exact h.with_unread ..
  | reset => exact inv_atReset _ _
  | buffer w hn => exact (h.with_flen hn).with_unread ..
  | decodeError _ hd => exact h.decodeFails hd
  | decodeReading _ w => exact h.decodeSucceeds w
  | startReception => exact h.startReception.silent
  | store b _ hr hl => exact (h.append b hr hl).silent
  | endReception b _ hr hl hs => exact ((h.append b hr hl).trimSentinel hs).silent
  | timeOut => exact h.timeOut.silent

theorem after_keeps_inv (i : Instr) {s : State} (h : Inv s) : Inv (after i s) :=
  after_keeps_of_effects (fun _ _ ht => ht.with_unread ..) (fun _ _ _ _ he ht => he.keeps_inv ht) h

/-- Settles O3: a step idles, performs an instruction or raises ILL, and each keeps the invariant. -/
theorem stepKeepsTheInvariant : Obligations.StepKeepsTheInvariant := by
  intro s s' h hstep
  have taken : ∀ rest, Inv { s with presented := rest } := fun _ => h.with_unread ..
  rcases step_cases hstep with ⟨-, rfl⟩ | ⟨_, rest, i, -, -, rfl⟩ | ⟨_, rest, _, -, -, rfl⟩
  · exact h.silent
  · exact after_keeps_inv i (taken rest)
  · exact (taken rest).with_unread ..

/-- Settles O2: it is the invariant after a reset, at the hardware's. -/
theorem resetSatisfiesTheInvariant : Obligations.ResetSatisfiesTheInvariant := inv_atReset 0 []

end Machine
end Sys2Proof
end

section
/-! Who writes what (R34): the accumulator is the checksum unit's, the receive buffer the receiver's, and the bits of
`FLT` are cleared by a reset alone. -/

namespace Sys2Proof
namespace Machine

/-! ### The accumulator -/

/-- The operations that write `ACC` (R34). -/
def writesAcc : Instr → Bool
  | .bccClr => true
  | .bccAbs _ => true
  | .rst => true
  | _ => false

/-- No message stands for an operation that writes `ACC` (R108, R171). -/
theorem writesAcc_of_mem_expand {i j : Instr} (hi : writesAcc i = false) (hj : j ∈ expand i) :
    writesAcc j = false :=
  class_of_mem_expand (by cases i <;> rfl) hi hj

theorem OperationEffect.acc_eq {s t : State} {i : Instr} (he : OperationEffect s i t) (hi : writesAcc i = false) :
    t.acc = s.acc := by
  cases he with
  | reset | clear | absorb => exact nomatch hi
  | _ => rfl

theorem after_acc {i : Instr} (hi : writesAcc i = false) (s : State) : (after i s).acc = s.acc :=
  after_keeps_of_effects (P := fun t => t.acc = s.acc) (fun _ _ ht => ht)
    (fun _ hj _ _ he ht => (he.acc_eq (writesAcc_of_mem_expand hi hj)).trans ht) rfl

theorem absorbed_cons {i : Instr} (hi : writesAcc i = false) (sofar : List Byte) (is : List Instr) :
    absorbed sofar (i :: is) = absorbed sofar is := by
  cases i with
  | bccClr | bccAbs | rst => exact nomatch hi
  | _ => rfl

/-- Settles O20, by induction on the run: a clear and a reset begin a new history, an absorbed byte extends it, and
nothing else writes `ACC`. -/
theorem accumulatorHoldsTheFoldSinceTheClear : Obligations.AccumulatorHoldsTheFoldSinceTheClear := by
  intro is
  induction is with
  | nil =>
    intro sofar s r hacc hr
    obtain rfl := Host.Outcome.next.inj hr
    exact hacc
  | cons i is ih =>
    intro sofar s r hacc hr
    obtain ⟨q, hq⟩ := runProgram_ok is (after i s)
    obtain rfl := Host.Outcome.next.inj ((runProgram_cons hq).symm.trans hr)
    cases hi : writesAcc i with
    | false => exact absorbed_cons hi sofar is ▸ ih sofar _ q ((after_acc hi s).trans hacc) hq
    | true =>
      cases i with
      | bccClr | rst => exact ih [] _ q rfl hq
      | bccAbs b => exact ih (sofar ++ [b]) _ q (by rw [checksum_snoc, ← hacc]; rfl) hq
      | _ => exact nomatch hi

/-! ### The receive buffer -/

theorem storesReceived_of_mem_expand {i j : Instr} (hi : storesReceived i = false) (hj : j ∈ expand i) :
    storesReceived j = false :=
  class_of_mem_expand (by cases i <;> rfl) hi hj

theorem OperationEffect.rbuf_eq {s t : State} {i : Instr} (he : OperationEffect s i t)
    (hi : storesReceived i = false) : t.rbuf = s.rbuf := by
  cases he with
  | reset | store | endReception => exact nomatch hi
  | _ => rfl

theorem after_rbuf {i : Instr} (hi : storesReceived i = false) (s : State) : (after i s).rbuf = s.rbuf :=
  after_keeps_of_effects (P := fun t => t.rbuf = s.rbuf) (fun _ _ ht => ht)
    (fun _ hj _ _ he ht => (he.rbuf_eq (storesReceived_of_mem_expand hi hj)).trans ht) rfl

/-- Settles O49: the list of the buffer is as before, and a byte of it depends on nothing else. -/
theorem onlyRxPutStoresReceivedBytes : Obligations.OnlyRxPutStoresReceivedBytes :=
  fun i s hi => ⟨_, exec_eq_next i s, State.rbufByte_congr (after_rbuf hi s)⟩

/-! ### Fault bits -/

/-- Only `RST` itself stands for a reset. -/
theorem ne_rst_of_mem_expand {i j : Instr} (hi : i ≠ .rst) (hj : j ∈ expand i) : j ≠ .rst :=
  beq_eq_false_iff_ne.1 (class_of_mem_expand (C := (· == .rst)) (by cases i <;> rfl) (beq_eq_false_iff_ne.2 hi) hj)

theorem OperationEffect.flt_eq_or {s t : State} {i : Instr} (he : OperationEffect s i t) (hi : i ≠ .rst) :
    t.flt = s.flt ∨ ∃ f, t.flt = setFaultBit s.flt f := by
  cases he with
  | fault _ f => exact .inr ⟨f, rfl⟩
  | reset => exact absurd rfl hi
  | _ => exact .inl rfl

/-- Setting one more bit keeps every bit that was set. -/
theorem setFaultBit_keeps_of {flt g : BitVec 4} (h : flt &&& g = g) (f : FaultBit) :
    setFaultBit flt f &&& g = g :=
  calc setFaultBit flt f &&& g
      = setFaultBit flt f &&& (flt &&& g) := by rw [h]
    _ = (setFaultBit flt f &&& flt) &&& g := (BitVec.and_assoc ..).symm
    _ = g := by rw [setFaultBit_keeps, h]

theorem after_flt_keeps {i : Instr} (hi : i ≠ .rst) (s : State) : (after i s).flt &&& s.flt = s.flt := by
  refine after_keeps_of_effects (P := fun t => t.flt &&& s.flt = s.flt) (fun _ _ ht => ht) ?_ (BitVec.and_self)
  intro j hj t u he ht
  rcases he.flt_eq_or (ne_rst_of_mem_expand hi hj) with hu | ⟨f, hu⟩
  · rw [hu, ht]
  · rw [hu, setFaultBit_keeps_of ht]

/-- Settles O53: an operation leaves `FLT` or sets one bit of it, unless it is `RST`. -/
theorem faultBitsOnlyAccumulate : Obligations.FaultBitsOnlyAccumulate :=
  fun i s hi => ⟨_, exec_eq_next i s, after_flt_keeps hi s⟩

end Machine
end Sys2Proof
end

section
/-! No behaviour depends on `FLT` (R32): two runs that start with different faults agree in all else. -/

namespace Sys2Proof
namespace Machine

/-- What `op` leaves, `FLT` apart, is the same whatever `FLT` was. -/
def IgnoresFaults (op : State → State) : Prop :=
  ∀ (s : State) (f : BitVec 4), ∃ g, op { s with flt := f } = { op s with flt := g }

theorem IgnoresFaults.comp {op op' : State → State} (h' : IgnoresFaults op') (h : IgnoresFaults op) :
    IgnoresFaults (op' ∘ op) := by
  intro s f
  obtain ⟨g, hg⟩ := h s f
  obtain ⟨g', hg'⟩ := h' (op s) g
  exact ⟨g', (congrArg op' hg).trans hg'⟩

theorem IgnoresFaults.thenRun {op : State → State} (h : IgnoresFaults op) : IgnoresFaults (State.thenRun · op) := by
  intro s f
  obtain ⟨g, hg⟩ := h s f
  exact ⟨g, by simp only [State.thenRun, hg]⟩

theorem IgnoresFaults.foldl_thenRun {ops : List (State → State)} (h : ∀ op ∈ ops, IgnoresFaults op) :
    IgnoresFaults (fun s => ops.foldl State.thenRun s) := by
  induction ops with
  | nil => exact fun _ f => ⟨f, rfl⟩
  | cons op ops ih =>
    have hops := ih fun o ho => h o (List.mem_cons_of_mem _ ho)
    exact hops.comp (h op List.mem_cons_self).thenRun

theorem IgnoresFaults.runOps {ops : List (State → State)} (h : ∀ op ∈ ops, IgnoresFaults op) :
    IgnoresFaults (State.runOps · ops) :=
  fun s f => foldl_thenRun h { s with tx := [] } f

/-- No message stands for a read of the faults. -/
theorem ne_rdFlt_of_mem_expand {i j : Instr} (hi : i ≠ .rd .flt) (hj : j ∈ expand i) : j ≠ .rd .flt := by
  have hany : (expand i).any (· == .rd .flt) = (i == .rd .flt) := by
    cases i with
    | rd r => exact Bool.or_false _
    | _ => rfl
  exact beq_eq_false_iff_ne.1 (class_of_mem_expand (C := (· == .rd .flt)) hany (beq_eq_false_iff_ne.2 hi) hj)

/-- An operation that branches does so on other registers. -/
theorem operation_ignoresFaults {i : Instr} (h : isOperation i = true) (hi : i ≠ .rd .flt) :
    IgnoresFaults (after i) := by
  intro s f
  cases i with
  | rd r =>
    cases r with
    | flt => exact absurd rfl hi
    | _ => exact ⟨f, rfl⟩
  | feOpen b => simp only [after, feOpen]; split <;> exact ⟨_, rfl⟩
  | feArg8 b => simp only [after, feArg8]; split <;> exact ⟨_, rfl⟩
  | feArg16 v => simp only [after, feArg16]; split <;> exact ⟨_, rfl⟩
  | feClose => simp only [after, feClose]; split <;> exact ⟨_, rfl⟩
  | fdPush b => simp only [after, fdPush]; split <;> exact ⟨_, rfl⟩
  | fdDec => simp only [after, fdDecWith, decodeCore]; split_ifs <;> exact ⟨_, rfl⟩
  | fdDecx => simp only [after, fdDecxWith, decodeCore]; split_ifs <;> exact ⟨_, rfl⟩
  | rxPut b last =>
    have hs : (State.append { s with flt := f } b).sentinelSeen = (s.append b).sentinelSeen := rfl
    simp only [after, rxPutWith, hs]
    split_ifs <;> exact ⟨_, rfl⟩
  | rxTmo => simp only [after, rxTmo]; split <;> exact ⟨_, rfl⟩
  | rxRdb a => simp only [after, rxRdb]; split <;> exact ⟨_, rfl⟩
  | wireFrame | wireEncryptedFrame | cmdAdjust | cmdStream | cmdXstream | cmdFile | wireSentinel => exact nomatch h
  | _ => exact ⟨_, rfl⟩

theorem after_ignoresFaults {i : Instr} (hi : i ≠ .rd .flt) : IgnoresFaults (after i) := by
  cases h : isOperation i with
  | true => exact operation_ignoresFaults h hi
  | false =>
    rw [funext (after_message h)]
    refine .runOps fun op hop => ?_
    obtain ⟨j, hj, rfl⟩ := List.mem_map.1 hop
    exact operation_ignoresFaults (isOperation_of_mem_expand hj) (ne_rdFlt_of_mem_expand hi hj)

/-- Settles O55: the two next states differ in `FLT` at most. -/
theorem behaviourDoesNotDependOnFaults : Obligations.BehaviourDoesNotDependOnFaults := by
  intro i s f hi
  obtain ⟨g, hg⟩ := after_ignoresFaults hi s f
  exact ⟨after i s, g, exec_eq_next i s, by rw [exec_eq_next, hg]⟩

end Machine
end Sys2Proof
end

section
/-! The reset values (R39, R166) and the read port (R33, R144). -/

namespace Sys2Proof
namespace Machine

/-- Settles O1: the reset state is written out, and these are its fields. -/
theorem resetLeavesTheSpecifiedValues : Obligations.ResetLeavesTheSpecifiedValues :=
  ⟨rfl, rfl, rfl, rfl, rfl, rfl, rfl, rfl, rfl⟩

/-- The word of `RD` with register number `n` (R57, R62). -/
theorem decodeWord_rd (n : BitVec 4) :
    decodeWord ((0x01000 : BitVec 20) ++ n) = .ok (.rd (StatusReg.ofNumber n)) := by
  have hw : ((0x01000 : BitVec 20) ++ n : OpWord) = opWord 0x01 (opdR (StatusReg.ofNumber n)) := by
    revert n
    decide
  rw [hw]
  exact (decode_word_opWord _ _).trans (formR_opdR .rd _)

/-- The sixteen registers in the order of their numbers (R33). -/
theorem statusReg_at_number (n : BitVec 4) :
    [StatusReg.acc, .key, .flen, .dstat, .res, .alarm0, .alarm1, .alarm2, .calcReg, .recvReg, .ckv, .aerr, .estat,
      .rstat, .rlen, .flt][n.toNat]? = some (StatusReg.ofNumber n) := by
  revert n
  decide

/-- `RD` answers what the read port shows and leaves the rest (R144). -/
theorem exec_rd_of_readStatus {r : StatusReg} {s : State} {v : Half} (h : readStatus Config.params s r = v) :
    ∃ m, exec (.rd r) s = .next { s with tx := [], dout := v, draws := m } :=
  ⟨_, (exec_eq_next (.rd r) s).trans (by rw [← h]; rfl)⟩

/-- Settles O15, register by register: a narrow one is zero-extended, a code or a flag has its number. -/
theorem rdReturnsTheNumberedRegister : Obligations.RdReturnsTheNumberedRegister := by
  refine fun s => ⟨fun n r hr => ?_, fun r => exec_rd_of_readStatus ?_, fun opd hopd => ?_⟩
  · obtain rfl := Option.some.inj ((statusReg_at_number n).symm.trans hr)
    exact decodeWord_rd n
  · cases r with
    | key | res | rlen => rfl
    | acc | flen | alarm0 | alarm1 | alarm2 | calcReg | recvReg | flt => exact setWidth16_eq _
    | dstat => rw [readStatus]; cases s.dstat <;> rfl
    | estat => rw [readStatus]; cases s.estat <;> rfl
    | rstat => rw [readStatus]; cases s.rstat <;> rfl
    | ckv => rw [readStatus]; cases s.ckv <;> rfl
    | aerr => rw [readStatus]; cases s.aerr <;> rfl
  · exact stepOn_error ((decodeWord_append 0x01 opd).trans (formR_error .rd hopd)) s

end Machine
end Sys2Proof
end

section
/-! The encodings (R55 to R71): decoding and encoding undo each other, and the illegal operation words are those that
match no row of the opcode map. -/

namespace Sys2Proof

/-! ### Messages -/

theorem encode_of_decodeModeCommand {opcode : Byte} {i : Instr} (h : decodeModeCommand opcode = .ok i) :
    encode i = .message [Config.sof, opcode, Config.eof] ∧ i.wellFormed = true := by
  unfold decodeModeCommand at h
  split_ifs at h with hs hx hf
  · obtain rfl := Except.ok.inj h; subst hs; exact ⟨rfl, rfl⟩
  · obtain rfl := Except.ok.inj h; subst hx; exact ⟨rfl, rfl⟩
  · obtain rfl := Except.ok.inj h; subst hf; exact ⟨rfl, rfl⟩

/-- An eight-byte message has the delimiters of the format it is read as. -/
theorem encode_of_decodeFrameMessage {raw : FrameImage} {i : Instr} (h : decodeFrameMessage raw = .ok i) :
    encode i = .message raw.bytes ∧ i.wellFormed = true := by
  unfold decodeFrameMessage at h
  split_ifs at h with hd he
  · obtain rfl := Except.ok.inj h; exact ⟨rfl, hd⟩
  · obtain rfl := Except.ok.inj h; exact ⟨rfl, he⟩

/-- The bytes of a message that decodes are those that its instruction is sent as: the fixed bytes are its row's, the
others are kept in the instruction. -/
theorem encode_of_decodeMessage {bytes : List Byte} {i : Instr} (h : decodeMessage bytes = .ok i) :
    encode i = .message bytes ∧ i.wellFormed = true := by
  unfold decodeMessage at h
  split at h
  case h_1 =>
    split_ifs at h with hb
    obtain ⟨rfl, rfl⟩ := hb
    obtain rfl := Except.ok.inj h
    exact ⟨rfl, rfl⟩
  case h_2 =>
    split_ifs at h with hb
    obtain ⟨rfl, rfl⟩ := hb
    exact encode_of_decodeModeCommand h
  case h_3 => exact encode_of_decodeFrameMessage h
  case h_4 =>
    split_ifs at h with hb
    obtain ⟨rfl, rfl, rfl⟩ := hb
    obtain rfl := Except.ok.inj h
    exact ⟨by simp only [encode, Machine.hi8_append, Machine.lo8_append], rfl⟩
  case h_5 => exact nomatch h

/-- Every operation is well-formed; only the wire frames can fail to be. -/
theorem wellFormed_of_isOperation {i : Instr} (h : Machine.isOperation i = true) : i.wellFormed = true := by
  cases i with
  | wireFrame | wireEncryptedFrame => exact nomatch h
  | _ => rfl

theorem encode_of_decode {p : Presentation} {i : Instr} (h : decode p = .ok i) :
    encode i = p ∧ i.wellFormed = true := by
  cases p with
  | word w => exact ⟨encode_of_decodeWord h, wellFormed_of_isOperation (Machine.isOperation_of_decodeWord h)⟩
  | message bytes => exact encode_of_decodeMessage h

/-! ### Words against the rows of R62 -/

/-- The row that the encoder's word of an operation matches. -/
theorem exists_row_of_inRow {m : String} {w : OpWord} (h : Laws.RowMatch.inRow m (.word w) = true) :
    ∃ row ∈ opcodeTable, w &&& row.mask = row.pattern := by
  obtain ⟨row, hrow, hm⟩ := List.any_eq_true.1 h
  exact ⟨row, hrow, beq_iff_eq.1 (Bool.and_eq_true_iff.1 hm).2⟩

/-- What is encoded belongs to the row of its mnemonic, instruction by instruction. -/
theorem rowMatch (i : Instr) : Laws.RowMatch.Statement i := by
  cases i with
  | nop => exact Laws.RowMatch.nop
  | rd r => exact Laws.RowMatch.rd r
  | rst => exact Laws.RowMatch.rst
  | bccClr => exact Laws.RowMatch.bccClr
  | bccAbs b => exact Laws.RowMatch.bccAbs b
  | xcByte b => exact Laws.RowMatch.xcByte b
  | feOpen b => exact Laws.RowMatch.feOpen b
  | feArg8 b => exact Laws.RowMatch.feArg8 b
  | feArg16 v => exact Laws.RowMatch.feArg16 v
  | feClose => exact Laws.RowMatch.feClose
  | fdClr => exact Laws.RowMatch.fdClr
  | fdPush b => exact Laws.RowMatch.fdPush b
  | fdDec => exact Laws.RowMatch.fdDec
  | fdDecx => exact Laws.RowMatch.fdDecx
  | rxStart => exact Laws.RowMatch.rxStart
  | rxPut b last => exact Laws.RowMatch.rxPut b last
  | rxTmo => exact Laws.RowMatch.rxTmo
  | rxRdb a => exact Laws.RowMatch.rxRdb a
  | wireFrame raw => exact Laws.RowMatch.wireFrame raw
  | wireEncryptedFrame raw => exact Laws.RowMatch.wireEncryptedFrame raw
  | cmdAdjust l u f => exact Laws.RowMatch.cmdAdjust l u f
  | cmdStream => exact Laws.RowMatch.cmdStream
  | cmdXstream => exact Laws.RowMatch.cmdXstream
  | cmdFile => exact Laws.RowMatch.cmdFile
  | wireSentinel => exact Laws.RowMatch.wireSentinel

theorem exists_row_of_decodeWord {w : OpWord} {i : Instr} (h : decodeWord w = .ok i) :
    ∃ row ∈ opcodeTable, w &&& row.mask = row.pattern := by
  have hm : Laws.RowMatch.inRow (Laws.RowMatch.mnemonic i) (encode i) = true := rowMatch i
  rw [encode_of_decodeWord h] at hm
  exact exists_row_of_inRow hm

/-- Operand bits that a mask finds clear are zero as a field, when the mask covers the field. -/
theorem extractLsb'_eq_zero_of_and {opd mask : Half} {start len : Nat}
    (hm : mask.extractLsb' start len = BitVec.allOnes len) (h : opd &&& mask = 0) :
    opd.extractLsb' start len = 0 := by
  have hf := congrArg (BitVec.extractLsb' start len) h
  rw [BitVec.extractLsb'_and, hm, BitVec.and_allOnes] at hf
  simpa using hf

/-! Each operand form takes an operand whose reserved bits, those of its rows' masks, are clear (R57, R58, R62). -/

theorem formN_ok (i : Instr) {opd : Half} (h : opd &&& 0xFFFF = 0) : ∃ j, formN i opd = .ok j :=
  ⟨_, if_pos (by rwa [show (0xFFFF : Half) = BitVec.allOnes 16 from rfl, BitVec.and_allOnes] at h)⟩

theorem formB_ok (mk : Byte → Instr) {opd : Half} (h : opd &&& 0xFF00 = 0) : ∃ i, formB mk opd = .ok i :=
  ⟨_, if_pos (extractLsb'_eq_zero_of_and (by decide) h)⟩

theorem formBL_ok (mk : Byte → Bool → Instr) {opd : Half} (h : opd &&& 0xFE00 = 0) : ∃ i, formBL mk opd = .ok i :=
  ⟨_, if_pos (extractLsb'_eq_zero_of_and (by decide) h)⟩

theorem formR_ok (mk : StatusReg → Instr) {opd : Half} (h : opd &&& 0xFFF0 = 0) : ∃ i, formR mk opd = .ok i :=
  ⟨_, if_pos (extractLsb'_eq_zero_of_and (by decide) h)⟩

/-- A word matches a row's pattern when its `op` is the row's and the masked operand bits are clear. -/
theorem halves_of_and_eq {w : OpWord} {op : Byte} {mask : Half} (h : w &&& opWord 0xFF mask = opWord op 0) :
    opOf w = op ∧ opdOf w &&& mask = 0 := by
  constructor
  · have ho := congrArg opOf h
    rwa [opWord, opWord, opOf_append, opOf, BitVec.extractLsb'_and, ← opOf, ← opOf, opOf_append,
      show (0xFF : Byte) = BitVec.allOnes 8 from rfl, BitVec.and_allOnes] at ho
  · have ho := congrArg opdOf h
    rwa [opWord, opWord, opdOf_append, opdOf, BitVec.extractLsb'_and, ← opdOf, ← opdOf, opdOf_append] at ho

/-- A word of a row decodes: its `op` selects the row's form, and the mask clears the form's reserved bits. -/
theorem decodeWord_ok_of_row {w : OpWord} {row : OpRow} (hrow : row ∈ opcodeTable)
    (h : w &&& row.mask = row.pattern) : ∃ i, decodeWord w = .ok i := by
  have decodes : ∀ (op : Byte) (mask : Half), row.pattern = opWord op 0 → row.mask = opWord 0xFF mask →
      (∀ opd, opd &&& mask = 0 → ∃ i, decodeOp op opd = .ok i) → ∃ i, decodeWord w = .ok i := by
    intro op mask hp hm hop
    obtain ⟨rfl, hopd⟩ := halves_of_and_eq (hp ▸ hm ▸ h)
    exact hop _ hopd
  simp only [opcodeTable, List.cons_append, List.nil_append, List.mem_cons, List.not_mem_nil, or_false] at hrow
  rcases hrow with rfl | rfl | rfl | rfl | rfl | rfl | rfl | rfl | rfl | rfl | rfl | rfl | rfl | rfl | rfl | rfl |
    rfl | rfl
  · exact decodes 0x00 0xFFFF rfl rfl fun _ => formN_ok .nop
  · exact decodes 0x01 0xFFF0 rfl rfl fun _ => formR_ok .rd
  · exact decodes 0x0F 0xFFFF rfl rfl fun _ => formN_ok .rst
  · exact decodes 0x10 0xFFFF rfl rfl fun _ => formN_ok .bccClr
  · exact decodes 0x11 0xFF00 rfl rfl fun _ => formB_ok .bccAbs
  · exact decodes 0x20 0xFF00 rfl rfl fun _ => formB_ok .xcByte
  · exact decodes 0x30 0xFF00 rfl rfl fun _ => formB_ok .feOpen
  · exact decodes 0x31 0xFF00 rfl rfl fun _ => formB_ok .feArg8
  · exact decodes 0x32 0 rfl rfl fun opd _ => ⟨.feArg16 opd, rfl⟩
  · exact decodes 0x33 0xFFFF rfl rfl fun _ => formN_ok .feClose
  · exact decodes 0x40 0xFFFF rfl rfl fun _ => formN_ok .fdClr
  · exact decodes 0x41 0xFF00 rfl rfl fun _ => formB_ok .fdPush
  · exact decodes 0x42 0xFFFF rfl rfl fun _ => formN_ok .fdDec
  · exact decodes 0x43 0xFFFF rfl rfl fun _ => formN_ok .fdDecx
  · exact decodes 0x50 0xFFFF rfl rfl fun _ => formN_ok .rxStart
  · exact decodes 0x51 0xFE00 rfl rfl fun _ => formBL_ok .rxPut
  · exact decodes 0x52 0xFFFF rfl rfl fun _ => formN_ok .rxTmo
  · exact decodes 0x53 0 rfl rfl fun opd _ => ⟨.rxRdb opd, rfl⟩

/-! ### Illegal `op` values (R63) -/

theorem formN_ne_illegalOp (i : Instr) (opd : Half) : formN i opd ≠ .error .illegalOp := by
  unfold formN; split <;> simp

theorem formB_ne_illegalOp (mk : Byte → Instr) (opd : Half) : formB mk opd ≠ .error .illegalOp := by
  unfold formB; split <;> simp

theorem formBL_ne_illegalOp (mk : Byte → Bool → Instr) (opd : Half) : formBL mk opd ≠ .error .illegalOp := by
  unfold formBL; split <;> simp

theorem formW_ne_illegalOp (mk : Half → Instr) (opd : Half) : formW mk opd ≠ .error .illegalOp := by
  simp [formW]

theorem formR_ne_illegalOp (mk : StatusReg → Instr) (opd : Half) : formR mk opd ≠ .error .illegalOp := by
  unfold formR; split <;> simp

/-- Whether an `op` is illegal does not depend on the operand: every form rejects for its reserved bits only. -/
theorem decodeOp_illegalOp_iff_zero (op : Byte) (opd : Half) :
    decodeOp op opd = .error .illegalOp ↔ decodeOp op 0 = .error .illegalOp := by
  unfold decodeOp
  split <;>
    simp only [formN_ne_illegalOp, formB_ne_illegalOp, formBL_ne_illegalOp, formW_ne_illegalOp, formR_ne_illegalOp]

/-- The six ranges of R63, over all 256 values of `op`. -/
theorem decodeOp_zero_illegalOp_iff (op : Byte) :
    ((0x02 ≤ op ∧ op ≤ 0x0E) ∨ (0x12 ≤ op ∧ op ≤ 0x1F) ∨ (0x21 ≤ op ∧ op ≤ 0x2F) ∨
      (0x34 ≤ op ∧ op ≤ 0x3F) ∨ (0x44 ≤ op ∧ op ≤ 0x4F) ∨ 0x54 ≤ op) ↔
    decodeOp op 0 = .error .illegalOp := by
  revert op
  decide

/-! ### The statements -/

/-- Settles O8: the encoder writes every operand, and the decoder reads it back. -/
theorem decodeOfEncodeIsTheInstruction : Obligations.DecodeOfEncodeIsTheInstruction :=
  fun _ h => decode_encode h

/-- Settles O9: a word by its halves, a message by its length and fixed bytes. -/
theorem encodeOfDecodeIsThePresentation : Obligations.EncodeOfDecodeIsThePresentation :=
  fun _ _ h => encode_of_decode h

/-- Settles O7: the rows of the map cover what the forms take, every other word raises ILL, and the ranges of R63 are
the `op` values of no row. -/
theorem illegalWordRaisesIllAndNothingElse : Obligations.IllegalWordRaisesIllAndNothingElse := by
  refine ⟨fun w => ⟨?_, ?_⟩, fun w s hw => ?_, fun op opd => ?_⟩
  · rintro ⟨i, hi⟩
    exact exists_row_of_decodeWord hi
  · rintro ⟨row, hrow, h⟩
    exact decodeWord_ok_of_row hrow h
  · cases hd : decodeWord w with
    | ok i => exact absurd ⟨i, hd⟩ hw
    | error r => exact Machine.stepOn_error hd s
  · rw [decodeWord_append, decodeOp_illegalOp_iff_zero]
    exact decodeOp_zero_illegalOp_iff op

/-- Settles O10: the decoder computes each of them. -/
theorem wordsOfTheSpecDecodeAsWritten : Obligations.WordsOfTheSpecDecodeAsWritten := by
  unfold Obligations.WordsOfTheSpecDecodeAsWritten
  decide

end Sys2Proof
end

section
/-! The wire messages (R65 to R71) as the operations they stand for: what they emit, and what a received frame, a
Command and the sentinel leave. -/

namespace Sys2Proof
namespace Machine

/-- Settles O13: the message's meaning is the run of its operations, and that run is the operations one by one. -/
theorem messageDoesWhatItsOperationsDo : Obligations.MessageDoesWhatItsOperationsDo := by
  intro i s hi
  obtain ⟨r, hr⟩ := runProgram_ok (expand i) s
  exact ⟨r, hr, by rw [exec_eq_next, after_message hi, runOps_eq_runProgram hr]⟩

/-! ### Emission -/

/-- A run of operations that emit nothing emits nothing. -/
theorem State.runOps_tx_of_silent {ops : List (State → State)} (hops : ∀ op ∈ ops, ∀ t, (op t).tx = [])
    (s : State) : (s.runOps ops).tx = [] := by
  suffices H : ∀ t : State, t.tx = [] → (ops.foldl State.thenRun t).tx = [] from H _ rfl
  induction ops with
  | nil => exact fun _ ht => ht
  | cons op ops ih =>
    intro t ht
    refine ih (fun o ho => hops o (List.mem_cons_of_mem _ ho)) _ ?_
    rw [State.thenRun_tx, ht, hops op List.mem_cons_self t, List.append_nil]

theorem emits_of_mem_expand {i j : Instr} (hi : emits i = false) (hj : j ∈ expand i) : emits j = false :=
  class_of_mem_expand (by cases i <;> rfl) hi hj

theorem after_tx_of_not_emits {i : Instr} (hi : emits i = false) (s : State) : (after i s).tx = [] := by
  cases h : isOperation i with
  | true => exact operation_tx_of_not_emits h hi s
  | false =>
    rw [after_message h]
    refine State.runOps_tx_of_silent (fun op hop t => ?_) s
    obtain ⟨j, hj, rfl⟩ := List.mem_map.1 hop
    exact operation_tx_of_not_emits (isOperation_of_mem_expand hj) (emits_of_mem_expand hi hj) t

theorem OperationEffect.estat_eq {s t : State} {i : Instr} (he : OperationEffect s i t) (hi : emits i = false)
    (hr : i ≠ .rst) : t.estat = s.estat := by
  cases he with
  | reset => exact absurd rfl hr
  | emit h => exact nomatch hi.symm.trans h
  | _ => rfl

theorem after_estat_of_not_emits {i : Instr} (hi : emits i = false) (hr : i ≠ .rst) (s : State) :
    (after i s).estat = s.estat :=
  after_keeps_of_effects (P := fun t => t.estat = s.estat) (fun _ _ ht => ht)
    (fun _ hj _ _ he ht => (he.estat_eq (emits_of_mem_expand hi hj) (ne_rst_of_mem_expand hr hj)).trans ht) rfl

/-- Settles O29: nothing but the encoder's operations writes `TX` or, a reset apart, `ESTAT`. -/
theorem onlyTheEncoderEmits : Obligations.OnlyTheEncoderEmits :=
  fun i s hi => ⟨_, exec_eq_next i s, after_tx_of_not_emits hi s, fun hr => after_estat_of_not_emits hi hr s⟩

/-! ### Commands -/

/-- `s` with a Command open that was given `k` arguments and emitted `bytes`. -/
def State.inCommand (s : State) (bytes : List Byte) (k : Nat) : State :=
  { s with estat := .opened, tx := bytes, dout := Config.freeDout (s.draws + k), draws := s.draws + k + 1 }

theorem State.thenRun_feOpen {s : State} (b : Byte) (h : s.estat = .idle) :
    State.thenRun { s with tx := [] } (feOpen b) = s.inCommand [Config.sof, b] 0 := by
  rw [State.thenRun, feOpen_idle (s := { s with tx := [] }) b h]
  rfl

theorem State.thenRun_feArg16 (s : State) (bytes : List Byte) (k : Nat) (v : Half) :
    (s.inCommand bytes k).thenRun (feArg16 v) = s.inCommand (bytes ++ [hi8 v, lo8 v]) (k + 1) := by
  rw [State.thenRun, feArg16_opened v rfl]
  rfl

theorem State.thenRun_feClose {s : State} (bytes : List Byte) (k : Nat) (h : s.estat = .idle) :
    (s.inCommand bytes k).thenRun feClose = { s with
      tx := bytes ++ [Config.eof], dout := Config.freeDout (s.draws + k + 1), draws := s.draws + k + 2 } := by
  rw [State.thenRun, feClose_opened rfl, ← h]
  rfl

/-- A Command without arguments, from an idle encoder: it is opened and closed again, and its bytes are sent
(R98, R116). -/
theorem sendModeCommand_idle (opcode : Byte) {s : State} (h : s.estat = .idle) : ∃ d n,
    sendModeCommand opcode s = { s with tx := [Config.sof, opcode, Config.eof], dout := d, draws := n } := by
  simp only [sendModeCommand, State.runOps, List.foldl_cons, List.foldl_nil]
  rw [State.thenRun_feOpen opcode h, State.thenRun_feClose _ _ h]
  exact ⟨_, _, rfl⟩

/-- The mode-1 Command, from an idle encoder (R97, R117). -/
theorem sendAdjust_idle (lower upper frequency : Half) {s : State} (h : s.estat = .idle) : ∃ d n,
    sendAdjust lower upper frequency s = { s with
      tx := [Config.sof, Config.opcAdjust] ++ adjustArgs lower upper frequency ++ [Config.eof]
      dout := d
      draws := n } := by
  simp only [sendAdjust, State.runOps, List.foldl_cons, List.foldl_nil]
  rw [State.thenRun_feOpen _ h, State.thenRun_feArg16, State.thenRun_feArg16, State.thenRun_feArg16,
    State.thenRun_feClose _ _ h]
  exact ⟨_, _, rfl⟩

/-- An equation for what an instruction leaves says what its meaning answers, for some outputs. -/
theorem exec_of_after {i : Instr} {s : State} {t : Half → Nat → State} (h : ∃ d n, after i s = t d n) :
    ∃ d n, exec i s = .next (t d n) := by
  obtain ⟨d, n, h⟩ := h
  exact ⟨d, n, h ▸ exec_eq_next i s⟩

/-- Settles O30: each Command is opened, given its arguments high byte first, and closed. -/
theorem commandMessagesAreSentByteForByte : Obligations.CommandMessagesAreSentByteForByte :=
  fun l u f _ h => ⟨exec_of_after (sendAdjust_idle l u f h), exec_of_after (sendModeCommand_idle Config.opcStream h),
    exec_of_after (sendModeCommand_idle Config.opcXstream h), exec_of_after (sendModeCommand_idle Config.opcFile h)⟩

/-! ### Received frames -/

/-- The alarm registers hold the alarm text of the document (R102, R106). -/
theorem alarmField_bytes (valid : Byte → Bool) (a0 a1 a2 : Byte) :
    [(alarmField valid a0 a1 a2).alarm0, (alarmField valid a0 a1 a2).alarm1, (alarmField valid a0 a1 a2).alarm2] =
      alarmText valid [a0, a1, a2] := by
  have hall : [a0, a1, a2].all valid = (valid a0 && valid a1 && valid a2) := by simp [Bool.and_assoc]
  rw [alarmField, alarmText, hall]
  split <;> rfl

/-- The decode of an image leaves the outcome that the document's `decode_frame` has on its bytes (R102, R107). -/
theorem decodeOutcome_decodeCore (p : Config.Params) (w : FrameImage) (s : State) :
    decodeOutcome (decodeCore p w s) = some (decodeFrame p w.bytes) := by
  unfold decodeCore
  split
  case isTrue hb => exact congrArg some (if_pos hb).symm
  case isFalse hb =>
    refine Eq.trans ?_ (congrArg some (if_neg hb).symm)
    rw [← alarmField_bytes]
    rfl

/-- Deciphering an image and restoring its delimiters, in the document's terms (R104, R105). -/
theorem decodeEncryptedFrame_bytes (p : Config.Params) (w : FrameImage) :
    decodeEncryptedFrame p w.bytes = decodeFrame p (frameRepair (frameMap (cipherByte p.key) w)).bytes := rfl

/-- What a decode writes, `DSTAT` and the results, can be read off the state it leaves. -/
theorem decodeCore_frame (p : Config.Params) (w : FrameImage) (s : State) : ∃ d n, decodeCore p w s =
    { s.withResultsOf (decodeCore p w s) with
      dstat := (decodeCore p w s).dstat, tx := [], dout := d, draws := n } := by
  unfold decodeCore
  split <;> exact ⟨_, _, rfl⟩

/-- `s` after `FD.CLR` and `k` pushes that left the image `w` in the buffer. -/
def State.afterPushes (s : State) (w : FrameImage) (k : Nat) : State :=
  { s with
    fb := w, flen := BitVec.ofNat 4 k, tx := [], dout := Config.freeDout (s.draws + k), draws := s.draws + k + 1 }

theorem State.thenRun_fdClr (s : State) :
    State.thenRun { s with tx := [] } fdClr = s.afterPushes s.fb 0 := rfl

/-- Push number `k` finds `FLEN = k` and stores at `FB[k]` (R101). -/
theorem State.thenRun_fdPush (s : State) (w : FrameImage) (b : Byte) {k : Nat} (hk : k < 8) :
    (s.afterPushes w k).thenRun (fdPush b) = s.afterPushes (frameSet w k b) (k + 1) := by
  have hlen : (s.afterPushes w k).flen.toNat = k := by simp [State.afterPushes]; omega
  rw [State.thenRun, fdPush_lt b (by omega), hlen]
  simp [State.afterPushes, State.silent, State.emitting, BitVec.ofNat_add, Nat.add_assoc]

/-- After the eight pushes the buffer is the image, and the decode begins (R118, R119). -/
theorem receiveFrame_eq_thenRun (decodeOp : State → State) (raw : FrameImage) (s : State) :
    receiveFrame decodeOp raw s = (s.afterPushes raw 8).thenRun decodeOp := by
  simp only [receiveFrame, State.runOps, List.foldl_cons, List.foldl_nil]
  rw [State.thenRun_fdClr, State.thenRun_fdPush, State.thenRun_fdPush, State.thenRun_fdPush, State.thenRun_fdPush,
    State.thenRun_fdPush, State.thenRun_fdPush, State.thenRun_fdPush, State.thenRun_fdPush]
  · simp only [frameSet]
  all_goals decide

/-- After nothing was emitted, one more operation is the operation alone. -/
theorem State.thenRun_of_tx_nil {s : State} (op : State → State) (h : s.tx = []) : s.thenRun op = op s := by
  rw [State.thenRun, h]
  rfl

/-- A received frame is in the buffer, and what is decoded is the image `w` that the decode makes of it. -/
theorem receiveFrame_decoded {decodeOp : State → State} {raw w : FrameImage} {s : State} {p : Config.Params}
    (hdec : decodeOp (s.afterPushes raw 8) = decodeCore p w (s.afterPushes raw 8)) :
    ∃ (q : State) (d : Half) (n : Nat), receiveFrame decodeOp raw s =
        { s.withResultsOf q with fb := raw, flen := 8, dstat := q.dstat, tx := [], dout := d, draws := n } ∧
      decodeOutcome q = some (decodeFrame p w.bytes) := by
  obtain ⟨d, n, hq⟩ := decodeCore_frame p w (s.afterPushes raw 8)
  refine ⟨decodeCore p w (s.afterPushes raw 8), d, n, ?_, decodeOutcome_decodeCore p w _⟩
  calc receiveFrame decodeOp raw s
      = (s.afterPushes raw 8).thenRun decodeOp := receiveFrame_eq_thenRun decodeOp raw s
    _ = decodeOp (s.afterPushes raw 8) := State.thenRun_of_tx_nil decodeOp rfl
    _ = decodeCore p w (s.afterPushes raw 8) := hdec
    _ = _ := hq

/-- Settles O42: FD.DEC decodes the image as it is, FD.DECX the deciphered one with its delimiters restored. -/
theorem receivedFramesAreBufferedAndDecoded : Obligations.ReceivedFramesAreBufferedAndDecoded := by
  intro raw s
  obtain ⟨q, d, n, hq, ho⟩ := receiveFrame_decoded (raw := raw) (s := s) (fdDec_full Config.params rfl)
  rw [decodeEncryptedFrame_bytes]
  obtain ⟨q', d', n', hq', ho'⟩ := receiveFrame_decoded (raw := raw) (s := s)
    ((fdDecx_full Config.params rfl).trans (decodeCore_delimited _ _ rfl rfl).symm)
  exact ⟨⟨q, d, n, (exec_eq_next _ s).trans (congrArg _ hq), ho⟩,
    q', d', n', (exec_eq_next _ s).trans (congrArg _ hq'), ho'⟩

/-! ### The sentinel -/

/-- Two bytes appended and trimmed leave the length. -/
theorem rlen_append_append_trim (n : Half) : n + 1 + 1 - 2 = n := by
  rw [BitVec.add_assoc]
  exact BitVec.add_sub_cancel n 2

/-- In a reception with room for two bytes, the sentinel is stored behind the received bytes and trimmed again: its
first byte does not end the append, and its second finds the first in front of itself (R132 to R135). -/
theorem after_wireSentinel {s : State} (hr : s.rstat = .recv) (hroom : s.rlen.toNat < 65534) :
    after .wireSentinel s =
      ((State.append { s with tx := [] } 0xFF).silent.append 0xFF).trimSentinel.silent := by
  have hlen : s.rlen ≠ 65535 := fun e => by simp [e] at hroom
  have hnext : (s.rlen + 1).toNat = s.rlen.toNat + 1 := append_length (s := { s with tx := [] }) 0xFF hlen
  have hlen' : s.rlen + 1 ≠ 65535 := fun e => by
    have hfull : (s.rlen + 1).toNat = 65535 := congrArg BitVec.toNat e
    omega
  have first : rxPutWith Config.params 0xFF false { s with tx := [] } =
      (State.append { s with tx := [] } 0xFF).silent := rxPut_stored Config.params 0xFF false hr hlen rfl
  have seen : ((State.append { s with tx := [] } 0xFF).silent.append 0xFF).sentinelSeen = true := by
    have haddr : (s.rlen + 1).toNat - 1 = s.rlen.toNat := by rw [hnext, Nat.add_sub_cancel]
    refine (sentinelSeen_append 0xFF hlen').2 ⟨hnext ▸ Nat.le_add_left 1 _, ?_, rfl⟩
    exact (State.rbufByte_append { s with tx := [] } 0xFF _).trans (if_pos haddr)
  calc after .wireSentinel s
      = (State.thenRun { s with tx := [] } (rxPutWith Config.params 0xFF false)).thenRun
          (rxPutWith Config.params 0xFF true) := rfl
    _ = rxPutWith Config.params 0xFF true (State.append { s with tx := [] } 0xFF).silent := by
        rw [State.thenRun_of_tx_nil (s := { s with tx := [] }) _ rfl, first, State.thenRun_of_tx_nil _ rfl]
    _ = _ := rxPut_sentinel Config.params 0xFF true hr hlen' seen

/-- Settles O50: two bytes are appended and trimmed, and no other address of the buffer is written. -/
theorem sentinelMessageEndsTheReception : Obligations.SentinelMessageEndsTheReception := by
  intro s hr hroom
  have hroom' : s.rlen.toNat < 65534 := hroom
  have hn : (s.append 0xFF).rlen.toNat = s.rlen.toNat + 1 := append_length 0xFF fun e => by simp [e] at hroom'
  refine ⟨((s.append 0xFF).append 0xFF).rbuf, Config.freeDout (s.draws + 1), s.draws + 2, ?_, fun a h0 h1 => ?_⟩
  · rw [exec_eq_next, after_wireSentinel hr hroom']
    simp only [State.silent, State.emitting, State.trimSentinel, State.append, rlen_append_append_trim]
  · calc ({ s with rbuf := ((s.append 0xFF).append 0xFF).rbuf } : State).rbufByte a
        = ((s.append 0xFF).append 0xFF).rbufByte a := State.rbufByte_congr rfl a
      _ = (s.append 0xFF).rbufByte a := (State.rbufByte_append _ _ a).trans (if_neg (by rwa [hn]))
      _ = s.rbufByte a := (State.rbufByte_append _ _ a).trans (if_neg h0)

end Machine
end Sys2Proof
end

section
/-! The Checksum Unit: the two operations of the accumulator (R80, R81), and the laws of the fold (R83, R89). -/

namespace Sys2Proof

/-- The word of an operation of form `B`, written as its `op` and eight zero bits in front of the byte (R57). -/
theorem append_zero_append (op b : Byte) : (op ++ (0 : Byte)) ++ b = opWord op (opdB b) :=
  BitVec.append_assoc

namespace Machine

/-- Settles O17: the word clears `ACC`, and any bit set in an operand of form `N` makes it illegal. -/
theorem bccClrClearsTheAccumulator : Obligations.BccClrClearsTheAccumulator := fun s =>
  ⟨exec_of_after (i := .bccClr) ⟨_, _, rfl⟩, decode_encode (i := .bccClr) rfl,
    fun opd hopd => stepOn_error ((decodeWord_append 0x10 opd).trans (formN_error .bccClr hopd)) s⟩

/-- Settles O18: the byte of form `B` is folded in, and a bit set above it makes the operand illegal. -/
theorem bccAbsFoldsOneByteIn : Obligations.BccAbsFoldsOneByteIn := by
  refine fun b s => ⟨exec_of_after (i := .bccAbs b) ⟨_, _, rfl⟩, ?_, fun opd hopd => ?_⟩
  · exact (congrArg decodeWord (append_zero_append 0x11 b)).trans (decode_encode (i := .bccAbs b) rfl)
  · exact stepOn_error ((decodeWord_append 0x11 opd).trans (formB_error .bccAbs hopd)) s

theorem checksum_perm {s t : List Byte} (h : s.Perm t) : checksum s = checksum t :=
  h.foldl_op_eq

/-- Each ciphered byte brings the key into the fold once more, so that pairs of bytes cancel it (R89). -/
theorem checksum_cipher (k : Byte) (s : List Byte) :
    checksum (cipher k s) = if s.length % 2 = 0 then checksum s else checksum s ^^^ k := by
  induction s with
  | nil => rfl
  | cons b s ih =>
    have hcons : checksum (cipher k (b :: s)) = b ^^^ k ^^^ checksum (cipher k s) := checksum_cons _ _
    rw [hcons, ih, checksum_cons, List.length_cons]
    by_cases h : s.length % 2 = 0
    · rw [if_pos h, if_neg (by omega)]
      ac_rfl
    · rw [if_neg h, if_pos (by omega)]
      calc b ^^^ k ^^^ (checksum s ^^^ k) = b ^^^ checksum s ^^^ (k ^^^ k) := by ac_rfl
        _ = b ^^^ checksum s := by rw [BitVec.xor_self, BitVec.xor_zero]

/-- Settles O21: XOR is commutative and associative, and the parity of the length decides whether the key cancels. -/
theorem checksumIgnoresOrderAndSplits : Obligations.ChecksumIgnoresOrderAndSplits :=
  ⟨fun _ _ => checksum_perm, checksum_append, fun k s =>
    ⟨fun h => (checksum_cipher k s).trans (if_pos h), fun h => (checksum_cipher k s).trans (if_neg (by omega))⟩⟩

end Machine
end Sys2Proof
end

section
/-! The Cipher Unit: XC.BYTE (R86), the enciphering sequence (R115) and the involution (R87). -/

namespace Sys2Proof
namespace Machine

/-- Settles O22: the answer is the ciphered byte zero-extended, and a bit set above the byte of form `B` is illegal. -/
theorem xcByteAnswersTheTransformedByte : Obligations.XcByteAnswersTheTransformedByte := by
  refine fun b s => ⟨⟨s.draws, ?_⟩, ?_, fun opd hopd => ?_⟩
  · calc exec (.xcByte b) s
        = .next (s.answering (zext16 (b ^^^ 0xAA))) := exec_eq_next _ s
      _ = _ := by rw [zext16_eq]; rfl
  · exact (congrArg decodeWord (append_zero_append 0x20 b)).trans (decode_encode (i := .xcByte b) rfl)
  · exact stepOn_error ((decodeWord_append 0x20 opd).trans (formB_error .xcByte hopd)) s

/-- Collecting the answers of the sequence gives the encipherment, and the sequence emits and changes nothing (R115). -/
theorem cipherProc_run (bytes : List Byte) (s : State) :
    ∃ r, runProgram (cipherProc bytes) s = .next r ∧
      r.douts.map lo8 = cipher Config.key bytes ∧ r.tx = [] ∧ SameState s r.final := by
  induction bytes generalizing s with
  | nil => exact ⟨_, rfl, rfl, rfl, rfl⟩
  | cons b bytes ih =>
    obtain ⟨r, hr, hd, htx, hs⟩ := ih (after (.xcByte b) s)
    refine ⟨_, runProgram_cons hr, ?_, htx, .trans (t := after (.xcByte b) s) rfl hs⟩
    exact congrArg₂ List.cons (lo8_setWidth (cipherByte Config.key b)) hd

theorem cipher_cipher (k : Byte) (bytes : List Byte) : cipher k (cipher k bytes) = bytes :=
  Function.Involutive.list_map (cipherByte_cipherByte k) bytes

/-- Settles O23: the sequence computes `cipher` with the machine's key, and each byte of `cipher` is its own inverse. -/
theorem cipherSequenceEnciphersAndIsInvolutive : Obligations.CipherSequenceEnciphersAndIsInvolutive :=
  ⟨cipherProc_run, cipher_cipher⟩

end Machine
end Sys2Proof
end

section
/-! The command encoder: FE.OPEN, FE.ARG8, FE.ARG16 and FE.CLOSE (R91 to R94), and the sequence that encodes a
Command (R95, R116). -/

namespace Sys2Proof
namespace Machine

/-! ### The sequence -/

theorem State.thenRun_feArg8 (s : State) (bytes : List Byte) (k : Nat) (b : Byte) :
    (s.inCommand bytes k).thenRun (feArg8 b) = s.inCommand (bytes ++ [b]) (k + 1) := by
  rw [State.thenRun, feArg8_opened b rfl]
  rfl

/-- An open Command takes any number of arguments and emits each as it comes (R92). -/
theorem State.foldl_thenRun_feArg8 (s : State) (args bytes : List Byte) (k : Nat) :
    (args.map feArg8).foldl State.thenRun (s.inCommand bytes k) = s.inCommand (bytes ++ args) (k + args.length) := by
  induction args generalizing bytes k with
  | nil => rw [List.append_nil]; rfl
  | cons b args ih =>
    rw [List.map_cons, List.foldl_cons, State.thenRun_feArg8, ih, List.append_assoc, List.length_cons,
      Nat.add_right_comm, Nat.add_assoc]
    rfl

/-- The meanings of the operations that encode a Command (R116). -/
theorem map_after_encodeProc (opcode : Byte) (args : List Byte) :
    (encodeProc opcode args).map after = feOpen opcode :: (args.map feArg8 ++ [feClose]) := by
  simp only [encodeProc, List.map_append, List.map_cons, List.map_map]
  rfl

/-- From an idle encoder the sequence emits the Command and leaves everything but the outputs (R95, R116). -/
theorem runOps_encodeProc (opcode : Byte) (args : List Byte) {s : State} (h : s.estat = .idle) : ∃ d n,
    s.runOps ((encodeProc opcode args).map after) =
      { s with tx := [Config.sof, opcode] ++ args ++ [Config.eof], dout := d, draws := n } := by
  rw [map_after_encodeProc, State.runOps, List.foldl_cons, List.foldl_append, State.thenRun_feOpen opcode h,
    State.foldl_thenRun_feArg8, List.foldl_cons, State.thenRun_feClose _ _ h]
  exact ⟨_, _, rfl⟩

/-- Settles O28: the run of the sequence collects what its operations emit, and ends in the state they leave. -/
theorem encodeSequenceEmitsTheCommand : Obligations.EncodeSequenceEmitsTheCommand := by
  intro opcode args s h
  obtain ⟨r, hr⟩ := runProgram_ok (encodeProc opcode args) s
  obtain ⟨d, n, hops⟩ := runOps_encodeProc opcode args h
  have hfinal : { r.final with tx := r.tx } =
      { s with tx := [Config.sof, opcode] ++ args ++ [Config.eof], dout := d, draws := n } :=
    (runOps_eq_runProgram hr).symm.trans hops
  refine ⟨r, hr, congrArg State.tx hfinal, ?_⟩
  exact congrArg (fun t : State => { t with tx := s.tx, dout := s.dout, draws := s.draws }) hfinal

/-! ### The operations -/

/-- An operation out of place sets the bit of SEQ and does nothing else (R152). -/
theorem exec_of_seq {i : Instr} {s : State} (h : after i s = s.raiseFault .seq) : ∃ d n,
    exec i s = .next { s with flt := s.flt ||| 0b0010, tx := [], dout := d, draws := n } :=
  exec_of_after ⟨_, _, h⟩

/-- Settles O24: an idle encoder opens the Command, an open one faults. -/
theorem feOpenEmitsDelimiterAndOpcode : Obligations.FeOpenEmitsDelimiterAndOpcode := by
  refine fun b s => ⟨fun h => ?_, fun h => exec_of_seq (feOpen_opened b h), ?_, fun opd hopd => ?_⟩
  · exact exec_of_after (i := .feOpen b) ⟨_, _, feOpen_idle b h⟩
  · exact (congrArg decodeWord (append_zero_append 0x30 b)).trans (decode_encode (i := .feOpen b) rfl)
  · exact stepOn_error ((decodeWord_append 0x30 opd).trans (formB_error .feOpen hopd)) s

/-- Settles O25: an open Command takes the byte, an idle encoder faults. -/
theorem feArg8EmitsOneByte : Obligations.FeArg8EmitsOneByte := by
  refine fun b s => ⟨fun h => ?_, fun h => exec_of_seq (feArg8_idle b h), ?_, fun opd hopd => ?_⟩
  · exact exec_of_after (i := .feArg8 b) ⟨_, _, feArg8_opened b h⟩
  · exact (congrArg decodeWord (append_zero_append 0x31 b)).trans (decode_encode (i := .feArg8 b) rfl)
  · exact stepOn_error ((decodeWord_append 0x31 opd).trans (formB_error .feArg8 hopd)) s

theorem setFaultBit_setFaultBit (flt : BitVec 4) (f : FaultBit) :
    setFaultBit (setFaultBit flt f) f = setFaultBit flt f := by
  cases f <;> revert flt <;> decide

/-- `FE.ARG16` has the effect of two `FE.ARG8` (R93): with a Command open each byte is emitted, with none open the
second SEQ finds its bit set. -/
theorem feArg16_eq_feArg8_feArg8 (v : Half) (s : State) :
    (feArg8 (hi8 v) s).tx ++ (feArg8 (lo8 v) (feArg8 (hi8 v) s)).tx = (feArg16 v s).tx ∧
      SameState (feArg16 v s) (feArg8 (lo8 v) (feArg8 (hi8 v) s)) := by
  cases h : s.estat with
  | opened =>
    rw [feArg16_opened v h, feArg8_opened _ h, feArg8_opened (s := s.emitting _) _ h]
    exact ⟨rfl, rfl⟩
  | idle =>
    rw [feArg16_idle v h, feArg8_idle _ h, feArg8_idle (s := s.raiseFault .seq) _ h]
    refine ⟨rfl, ?_⟩
    simp only [SameState, State.raiseFault, State.silent, State.emitting, setFaultBit_setFaultBit]

/-- Settles O26: the two bytes are the halves of the operand, and their run is that of two `FE.ARG8`. -/
theorem feArg16EmitsBigEndian : Obligations.FeArg16EmitsBigEndian := by
  intro v s
  rw [← hi8_eq, ← lo8_eq]
  obtain ⟨htx, hsame⟩ := feArg16_eq_feArg8_feArg8 v s
  refine ⟨fun h => ?_, fun h => exec_of_seq (feArg16_idle v h), ?_, decode_encode (i := .feArg16 v) rfl⟩
  · exact exec_of_after (i := .feArg16 v) ⟨_, _, feArg16_opened v h⟩
  · exact ⟨_, _, runProgram_cons (runProgram_one _ _), exec_eq_next (.feArg16 v) s, htx, hsame⟩

/-- Settles O27: an open Command is closed, an idle encoder faults; the three-byte Command is the sequence without
arguments. -/
theorem feCloseEmitsTheEndDelimiter : Obligations.FeCloseEmitsTheEndDelimiter := by
  refine fun s => ⟨fun h b => ?_, fun h => ?_, fun h => exec_of_seq (feClose_idle h),
    decode_encode (i := .feClose) rfl, fun opd hopd => ?_⟩
  · obtain ⟨r, hr, htx, -⟩ := encodeSequenceEmitsTheCommand b [] s h
    exact ⟨r, hr, htx⟩
  · exact exec_of_after (i := .feClose) ⟨_, _, feClose_opened h⟩
  · exact stepOn_error ((decodeWord_append 0x33 opd).trans (formN_error .feClose hopd)) s

end Machine
end Sys2Proof
end

section
/-! The frame decoder: FD.CLR and FD.PUSH fill the buffer (R100, R101), FD.DEC and FD.DECX decode it (R103, R105 to
R112). -/

namespace Sys2Proof
namespace Machine

/-! ### The buffer -/

/-- Settles O31: the word empties the buffer, a decode finds no frame in it, and any operand bit makes the word
illegal. -/
theorem fdClrEmptiesTheFrameBuffer : Obligations.FdClrEmptiesTheFrameBuffer := by
  refine fun s => ⟨exec_of_after (i := .fdClr) ⟨_, _, rfl⟩, ?_, decode_encode (i := .fdClr) rfl, fun opd hopd => ?_⟩
  · have hdec : after .fdDec (after .fdClr s) = decodeFails .lengthErr (fdClr s) :=
      fdDec_length Config.params (s := fdClr s) (by simp [fdClr])
    exact ⟨_, runProgram_cons (runProgram_one _ _), congrArg State.dstat hdec⟩
  · exact stepOn_error ((decodeWord_append 0x40 opd).trans (formN_error .fdClr hopd)) s

/-- `FB[i] <- b` in the bytes of the image; from 8 on the index names none (R11). -/
theorem frameSet_bytes (w : FrameImage) (i : Nat) (b : Byte) : (frameSet w i b).bytes = w.bytes.set i b := by
  match i with
  | 0 | 1 | 2 | 3 | 4 | 5 | 6 | 7 => rfl
  | _ + 8 => rfl

/-- Settles O32: below eight the byte is stored at `FLEN`, from eight on only `FLEN` is written. -/
theorem fdPushAppendsOrSaturates : Obligations.FdPushAppendsOrSaturates := by
  refine fun b s => ⟨fun h => ?_, fun h => ?_, ?_, fun opd hopd => ?_⟩
  · have hpush := (exec_eq_next (.fdPush b) s).trans (congrArg _ (fdPush_lt b h))
    exact ⟨_, _, _, hpush, frameSet_bytes s.fb s.flen.toNat b⟩
  · exact exec_of_after (i := .fdPush b) ⟨_, _, fdPush_ge b h⟩
  · exact (congrArg decodeWord (append_zero_append 0x41 b)).trans (decode_encode (i := .fdPush b) rfl)
  · exact stepOn_error ((decodeWord_append 0x41 opd).trans (formB_error .fdPush hopd)) s

/-! ### The decodes -/

theorem exec_of_decodeFails {i : Instr} {s : State} {d : DStat} (h : after i s = decodeFails d s) :
    ∃ (q : State) (v : Half) (n : Nat),
      exec i s = .next { s.withResultsOf q with dstat := d, tx := [], dout := v, draws := n } := by
  obtain ⟨q, hq⟩ := decodeFails_eq d s
  exact ⟨q, exec_of_after (h ▸ hq)⟩

theorem checksum_six (a b c d e f : Byte) : checksum [a, b, c, d, e, f] = a ^^^ b ^^^ c ^^^ d ^^^ e ^^^ f := by
  simp [BitVec.xor_assoc]

/-- The alarm field under the default text test, seven-bit codes (R6, R106). -/
theorem alarmField_params (a0 a1 a2 : Byte) :
    alarmField Config.params.textValid a0 a1 a2 =
      if a0 ≤ 0x7F ∧ a1 ≤ 0x7F ∧ a2 ≤ 0x7F then ⟨a0, a1, a2, false⟩ else ⟨0x45, 0x52, 0x52, true⟩ := by
  have htext : ∀ a : Byte, Config.params.textValid a = decide (a ≤ 0x7F) := fun _ => rfl
  simp only [alarmField, htext, Bool.and_eq_true, decide_eq_true_eq, and_assoc]
  rfl

/-- The registers after a decode of a delimited image by the machine, register by register (R106, R107). -/
theorem decodeSucceeds_params (w : FrameImage) (s : State) : ∃ d n, decodeSucceeds Config.params w s = { s with
    dstat := .ok
    res := BitVec.ofNat 16 (256 * w.b1.toNat + w.b2.toNat)
    alarm0 := if w.b3 ≤ 0x7F ∧ w.b4 ≤ 0x7F ∧ w.b5 ≤ 0x7F then w.b3 else 0x45
    alarm1 := if w.b3 ≤ 0x7F ∧ w.b4 ≤ 0x7F ∧ w.b5 ≤ 0x7F then w.b4 else 0x52
    alarm2 := if w.b3 ≤ 0x7F ∧ w.b4 ≤ 0x7F ∧ w.b5 ≤ 0x7F then w.b5 else 0x52
    aerr := if w.b3 ≤ 0x7F ∧ w.b4 ≤ 0x7F ∧ w.b5 ≤ 0x7F then false else true
    calcReg := w.b0 ^^^ w.b1 ^^^ w.b2 ^^^ w.b3 ^^^ w.b4 ^^^ w.b5
    recvReg := w.b6
    ckv := if w.b0 ^^^ w.b1 ^^^ w.b2 ^^^ w.b3 ^^^ w.b4 ^^^ w.b5 = w.b6 then true else false
    tx := [], dout := d, draws := n } := by
  refine ⟨Config.freeDout s.draws, s.draws + 1, ?_⟩
  have hckv : ∀ a b : Byte, checksumMatches a b = if a = b then true else false := fun a b => by
    simp [checksumMatches, beq_eq_decide]
  unfold decodeSucceeds
  rw [alarmField_params, be16_eq, checksum_six, hckv]
  split <;> rfl

theorem fdDec_delimited {s : State} (p : Config.Params) (h : s.flen = 8) (h0 : s.fb.b0 = Config.sof)
    (h7 : s.fb.b7 = Config.eof) : fdDecWith p s = decodeSucceeds p s.fb s :=
  (fdDec_full p h).trans (decodeCore_delimited p s h0 h7)

/-- Settles O33: the length is looked at first, then the delimiters. -/
theorem fdDecDecodesThePlainFrame : Obligations.FdDecDecodesThePlainFrame := by
  refine fun s => ⟨fun h => exec_of_decodeFails (fdDec_length _ h), fun h hb => exec_of_decodeFails ?_,
    fun h h0 h7 => ?_, decode_encode (i := .fdDec) rfl, fun opd hopd => ?_⟩
  · exact (fdDec_full _ h).trans (decodeCore_framing _ s hb)
  · obtain ⟨d, n, hd⟩ := decodeSucceeds_params s.fb s
    exact exec_of_after ⟨d, n, (fdDec_delimited _ h h0 h7).trans hd⟩
  · exact stepOn_error ((decodeWord_append 0x42 opd).trans (formN_error .fdDec hopd)) s

/-- Settles O34: the length is looked at, and the deciphered bytes between the restored delimiters are decoded. -/
theorem fdDecxDecodesTheDecipheredFrame : Obligations.FdDecxDecodesTheDecipheredFrame := by
  refine fun s => ⟨fun h => exec_of_decodeFails (fdDecx_length _ h), ?_, decode_encode (i := .fdDecx) rfl,
    fun opd hopd => ?_⟩
  · rintro h _ _ _ _ _ _ rfl rfl rfl rfl rfl rfl
    obtain ⟨d, n, hd⟩ := decodeSucceeds_params (frameRepair (frameMap (cipherByte Config.key) s.fb)) s
    exact exec_of_after ⟨d, n, (fdDecx_full _ h).trans hd⟩
  · exact stepOn_error ((decodeWord_append 0x43 opd).trans (formN_error .fdDecx hopd)) s

/-- Settles O35: the restored delimiters are never wrong. -/
theorem encryptedDecodeNeverReportsFraming : Obligations.EncryptedDecodeNeverReportsFraming :=
  fun p _ => ⟨fun h => congrArg State.dstat (fdDecx_full p h), fun h => congrArg State.dstat (fdDecx_length p h)⟩

/-! ### What the decodes agree on -/

theorem delimited_iff {w : FrameImage} :
    w.delimited = true ↔ w.b0 = Config.sof ∧ w.b7 = Config.eof := by
  simp [FrameImage.delimited]

theorem frameRepair_of_delimited {w : FrameImage} (h : w.delimited = true) : frameRepair w = w := by
  obtain ⟨h0, h7⟩ := delimited_iff.1 h
  rw [frameRepair, ← h0, ← h7]

/-- Deciphering the encipherment of a delimited image gives the image back. -/
theorem frameRepair_decipher {w : FrameImage} (k : Byte) (h : w.delimited = true) :
    frameRepair (frameMap (cipherByte k) (frameMap (cipherByte k) w)) = w := by
  rw [frameMap_frameMap_cipher, frameRepair_of_delimited h]

/-- Settles O36: both decodes are made of the same image. -/
theorem encryptedDecodeOfCipherEqualsPlainDecode : Obligations.EncryptedDecodeOfCipherEqualsPlainDecode := by
  intro p w s hw
  constructor
  · rw [cipher_bytes, decodeEncryptedFrame_bytes, frameRepair_decipher p.key hw]
  · intro t x
    obtain ⟨h0, h7⟩ := delimited_iff.1 hw
    have ht : t = decodeSucceeds p w { s with fb := w, flen := 8 } :=
      fdDec_delimited (s := { s with fb := w, flen := 8 }) p rfl h0 h7
    have hx : x = decodeSucceeds p w { s with fb := frameMap (cipherByte p.key) w, flen := 8 } := by
      have hfull := fdDecx_full (s := { s with fb := frameMap (cipherByte p.key) w, flen := 8 }) p rfl
      rwa [frameRepair_decipher p.key hw] at hfull
    rw [ht, hx]
    exact ⟨rfl, rfl, rfl, rfl, rfl, rfl, rfl, rfl, rfl⟩

theorem checksumMatches_of_ne {a b : Byte} (h : a ≠ b) : checksumMatches a b = false := beq_eq_false_iff_ne.2 h

/-- Settles O37: byte 6 reaches `RECV` and `CKV` alone. -/
theorem checksumMismatchIsAResultNotAnError : Obligations.ChecksumMismatchIsAResultNotAnError := by
  intro s c hlen h0 h7 h6
  have hs := fdDec_delimited Config.params hlen h0 h7
  have hc := fdDec_delimited (s := { s with fb := { s.fb with b6 := c } }) Config.params hlen h0 h7
  have hckv : (decodeSucceeds Config.params s.fb s).ckv = false :=
    checksumMatches_of_ne (by rw [checksum_six]; exact h6.symm)
  exact ⟨_, _, (exec_eq_next _ _).trans (congrArg _ hs), (exec_eq_next _ _).trans (congrArg _ hc), rfl, hckv, rfl, rfl,
    rfl, rfl, rfl, rfl, rfl, rfl⟩

/-- Six bytes under the cipher have the fold of the six bytes (R89), so the block calculates what the sender did. -/
theorem checksum_decipher_six {w : FrameImage} {k : Byte} (h0 : w.b0 = cipherByte k Config.sof) :
    checksum [Config.sof, cipherByte k w.b1, cipherByte k w.b2, cipherByte k w.b3, cipherByte k w.b4,
      cipherByte k w.b5] = w.b0 ^^^ w.b1 ^^^ w.b2 ^^^ w.b3 ^^^ w.b4 ^^^ w.b5 := by
  have hsof : cipherByte k w.b0 = Config.sof := by rw [h0, cipherByte_cipherByte]
  rw [← hsof, ← checksum_six]
  exact (checksum_cipher k [w.b0, w.b1, w.b2, w.b3, w.b4, w.b5]).trans (if_pos (by simp))

/-- Settles O38: `CALC` is what the sender folded, and `RECV` is it under the cipher, which changes every byte. -/
theorem unencipheredChecksumByteMismatches : Obligations.UnencipheredChecksumByteMismatches := by
  intro c s hlen h0 hc h6
  have hx := (exec_eq_next .fdDecx s).trans (congrArg _ (fdDecx_full Config.params hlen))
  have hcalc := (checksum_decipher_six (k := 0xAA) h0).trans hc.symm
  have hrecv : cipherByte 0xAA s.fb.b6 = c ^^^ 0xAA := congrArg (· ^^^ 0xAA) h6
  have hne : ∀ b : Byte, b ≠ b ^^^ 0xAA := by decide
  exact ⟨_, hx, rfl, hcalc, hrecv, checksumMatches_of_ne (hcalc.trans_ne ((hne c).trans_eq hrecv.symm))⟩

/-- The text test decides the alarm registers and `AERR` alone. -/
theorem decodeCore_alarmField (p q : Config.Params) (w : FrameImage) (s : State) :
    { decodeCore p w s with alarm0 := 0, alarm1 := 0, alarm2 := 0, aerr := false } =
      { decodeCore q w s with alarm0 := 0, alarm1 := 0, alarm2 := 0, aerr := false } := by
  unfold decodeCore
  split <;> rfl

/-- Settles O39: the length and the image that is decoded do not depend on the text test. -/
theorem textValidityDecidesTheAlarmFieldAlone : Obligations.TextValidityDecidesTheAlarmFieldAlone := by
  intro p q s hkey
  unfold fdDecWith fdDecxWith
  rw [hkey]
  split
  · exact ⟨rfl, rfl⟩
  · exact ⟨decodeCore_alarmField p q _ s, decodeCore_alarmField p q _ s⟩

end Machine
end Sys2Proof
end

section
/-! The decode sequences (R118, R119): clearing, pushing any number of bytes and decoding has the outcome of the
document's functions, and touches nothing outside the decoder. -/

namespace Sys2Proof
namespace Machine

/-! ### The document's functions on other lengths -/

theorem decodeFrame_of_length_ne (p : Config.Params) {raw : List Byte} (h : raw.length ≠ 8) :
    decodeFrame p raw = .error .lengthError := by
  unfold decodeFrame
  split
  · exact absurd rfl h
  · rfl

theorem decodeEncryptedFrame_of_length_ne (p : Config.Params) {raw : List Byte} (h : raw.length ≠ 8) :
    decodeEncryptedFrame p raw = .error .lengthError := by
  unfold decodeEncryptedFrame
  split
  · rfl
  · exact decodeFrame_of_length_ne p (by simpa using h)

/-! ### What the buffer holds -/

/-- `FLEN` counts the pushed bytes up to nine, and the first bytes of `FB` are the pushed ones as long as all of them
found room (R25, R101). -/
structure HoldsPushed (s : State) (pushed : List Byte) : Prop where
  count : s.flen.toNat = min pushed.length 9
  stored : pushed.length ≤ 8 → pushed <+: s.fb.bytes

theorem HoldsPushed.fdClr (s : State) : HoldsPushed (fdClr s) [] := ⟨rfl, fun _ => List.nil_prefix⟩

theorem HoldsPushed.fdPush {s : State} {pushed : List Byte} (h : HoldsPushed s pushed) (b : Byte) :
    HoldsPushed (fdPush b s) (pushed ++ [b]) := by
  have hcount := h.count
  have hlength : (pushed ++ [b]).length = pushed.length + 1 := List.length_append
  by_cases hroom : pushed.length < 8
  · have hlen : s.flen.toNat = pushed.length := by omega
    have hnext : (s.flen + 1).toNat = pushed.length + 1 := by bv_omega
    rw [fdPush_lt b (by omega), hlen]
    refine ⟨?_, fun _ => ?_⟩
    · rw [State.silent_flen, hnext, hlength]
      omega
    · show _ <+: (frameSet s.fb pushed.length b).bytes
      have htake := List.prefix_iff_eq_take.1 (h.stored hroom.le)
      rw [frameSet_bytes, List.set_eq_take_append_cons_drop, length_bytes, if_pos hroom, ← htake]
      exact ⟨_, List.append_assoc ..⟩
  · rw [fdPush_ge b (by omega)]
    refine ⟨?_, fun hfull => absurd hfull (by omega)⟩
    show 9 = min (pushed ++ [b]).length 9
    omega

theorem HoldsPushed.run_pushes {s : State} {pushed raw : List Byte} {r : Run} (h : HoldsPushed s pushed)
    (hr : runProgram (raw.map .fdPush) s = .next r) : HoldsPushed r.final (pushed ++ raw) := by
  induction raw generalizing s pushed r with
  | nil =>
    obtain rfl := Host.Outcome.next.inj hr
    rwa [List.append_nil]
  | cons b raw ih =>
    obtain ⟨q, hq⟩ := runProgram_ok (raw.map .fdPush) (after (.fdPush b) s)
    obtain rfl := Host.Outcome.next.inj ((runProgram_cons hq).symm.trans hr)
    have hq' := ih (h.fdPush b) hq
    rwa [List.append_assoc] at hq'

/-- Eight pushed bytes are the frame in the buffer. -/
theorem HoldsPushed.full {s : State} {raw : List Byte} (h : HoldsPushed s raw) (hlen : raw.length = 8) :
    s.flen = 8 ∧ raw = s.fb.bytes := by
  refine ⟨BitVec.eq_of_toNat_eq ?_, (h.stored hlen.le).eq_of_length hlen⟩
  rw [h.count, hlen]
  rfl

/-- Any other number of pushed bytes is not the length of a frame. -/
theorem HoldsPushed.flen_ne {s : State} {raw : List Byte} (h : HoldsPushed s raw) (hlen : raw.length ≠ 8) :
    s.flen ≠ 8 := by
  intro e
  have hcount : 8 = min raw.length 9 := (congrArg BitVec.toNat e).symm.trans h.count
  omega

/-- FD.DEC has the outcome of `decode_frame` of the pushed bytes (R113). -/
theorem HoldsPushed.fdDec {s : State} {raw : List Byte} (h : HoldsPushed s raw) :
    decodeOutcome (after .fdDec s) = some (decodeFrame Config.params raw) := by
  rw [after]
  by_cases hlen : raw.length = 8
  · obtain ⟨hflen, rfl⟩ := h.full hlen
    rw [fdDec_full _ hflen, decodeOutcome_decodeCore]
  · rw [fdDec_length _ (h.flen_ne hlen), decodeFrame_of_length_ne _ hlen]
    rfl

/-- FD.DECX has the outcome of `decode_encrypted_frame` of the pushed bytes (R104). -/
theorem HoldsPushed.fdDecx {s : State} {raw : List Byte} (h : HoldsPushed s raw) :
    decodeOutcome (after .fdDecx s) = some (decodeEncryptedFrame Config.params raw) := by
  rw [after]
  by_cases hlen : raw.length = 8
  · obtain ⟨hflen, rfl⟩ := h.full hlen
    rw [fdDecx_full _ hflen, ← decodeCore_delimited _ s rfl rfl, decodeOutcome_decodeCore, decodeEncryptedFrame_bytes]
  · rw [fdDecx_length _ (h.flen_ne hlen), decodeEncryptedFrame_of_length_ne _ hlen]
    rfl

/-! ### What the decoder's operations leave -/

/-- The operations of the frame decoder (R100 to R105). -/
def isDecoderOperation : Instr → Bool
  | .fdClr => true
  | .fdPush _ => true
  | .fdDec => true
  | .fdDecx => true
  | _ => false

/-- `s` with the frame buffer, `FLEN`, `DSTAT`, the result registers and the outputs of `q`. -/
def State.withDecoderOf (s q : State) : State :=
  { s.withResultsOf q with
    fb := q.fb
    flen := q.flen
    dstat := q.dstat
    tx := q.tx
    dout := q.dout
    draws := q.draws }

/-- The two states differ at most in the decoder's registers and the outputs. -/
def SameOutsideDecoder (s t : State) : Prop := t.withDecoderOf s = s

theorem SameOutsideDecoder.refl (s : State) : SameOutsideDecoder s s := rfl

theorem SameOutsideDecoder.trans {s t u : State} (h : SameOutsideDecoder s t) (k : SameOutsideDecoder t u) :
    SameOutsideDecoder s u :=
  (congrArg (State.withDecoderOf · s) k).trans h

theorem SameState.sameOutsideDecoder {s t : State} (h : SameState s t) : SameOutsideDecoder s t :=
  (congrArg (State.withDecoderOf · s) h :)

/-- The registers of the other units are among what is the same. -/
theorem SameOutsideDecoder.registers {s t : State} (h : SameOutsideDecoder s t) :
    t.acc = s.acc ∧ t.flt = s.flt ∧ t.estat = s.estat ∧ t.rstat = s.rstat ∧ t.rlen = s.rlen ∧ t.rbuf = s.rbuf := by
  rw [← h]
  exact ⟨rfl, rfl, rfl, rfl, rfl, rfl⟩

theorem decoderOperation_sameOutside {i : Instr} (h : isDecoderOperation i = true) (s : State) :
    SameOutsideDecoder s (after i s) := by
  cases i with
  | fdClr => rfl
  | fdPush b => rw [after, fdPush]; split <;> rfl
  | fdDec =>
    obtain ⟨q, e, v, n, hd⟩ := fdDec_eq Config.params s
    rw [after, hd]
    rfl
  | fdDecx =>
    obtain ⟨q, e, v, n, hd⟩ := fdDecx_eq Config.params s
    rw [after, hd]
    rfl
  | _ => exact nomatch h

/-- The decoder emits nothing (R60). -/
theorem decoderOperation_not_emits {i : Instr} (h : isDecoderOperation i = true) : emits i = false := by
  cases i with
  | fdClr | fdPush | fdDec | fdDecx => rfl
  | _ => exact nomatch h

theorem runProgram_tx_of_not_emits {is : List Instr} {s : State} {r : Run} (h : ∀ i ∈ is, emits i = false)
    (hr : runProgram is s = .next r) : r.tx = [] := by
  refine (congrArg State.tx (runOps_eq_runProgram hr)).symm.trans (State.runOps_tx_of_silent (fun op hop => ?_) s)
  obtain ⟨i, hi, rfl⟩ := List.mem_map.1 hop
  exact after_tx_of_not_emits (h i hi)

/-! ### The sequences -/

/-- Clearing, pushing `raw`, decoding with `dec` and reading returns the outcome `o` that the decode of the pushed
bytes leaves. -/
theorem decodeSequence_run {dec : Instr} {raw : List Byte} {o : Except DecodeError ParsedFrame}
    (hdec : isDecoderOperation dec = true)
    (ho : ∀ t, HoldsPushed t raw → decodeOutcome (after dec t) = some o) (s : State) :
    ∃ r, (giveAll (.fdClr :: raw.map .fdPush ++ [dec]) readDecoded).run s = .next r ∧ r.value = o ∧
      decodeOutcome r.final = some o ∧ r.tx = [] ∧ SameOutsideDecoder s r.final := by
  obtain ⟨q, hq⟩ := runProgram_ok (raw.map .fdPush) (after .fdClr s)
  have hout : decodeOutcome (after dec q.final) = some o := ho _ ((HoldsPushed.fdClr s).run_pushes hq)
  have hops := runProgram_cons (runProgram_append hq (runProgram_one dec q.final))
  have hclass : ∀ i ∈ Instr.fdClr :: (raw.map .fdPush ++ [dec]), isDecoderOperation i = true := by
    simp only [List.mem_cons, List.mem_append, List.mem_map, List.not_mem_nil, or_false]
    rintro i (rfl | ⟨b, -, rfl⟩ | rfl)
    exacts [rfl, rfl, hdec]
  have htx := runProgram_tx_of_not_emits (fun i hi => decoderOperation_not_emits (hclass i hi)) hops
  have hsame := runProgram_keeps (P := SameOutsideDecoder s)
    (fun i hi t ht => ht.trans (decoderOperation_sameOutside (hclass i hi) t)) (.refl s) hops
  obtain ⟨r, hr, hvalue, hrtx, hread⟩ := readDecoded_run hout
  refine ⟨_, HostProgram.run_giveAll hops hr, hvalue, ?_, ?_, hsame.trans hread.sameOutsideDecoder⟩
  · exact (hread.field decodeOutcome (fun _ _ _ _ => rfl)).trans hout
  · exact (congrArg₂ (· ++ ·) htx hrtx :)

/-- Settles O40: it is the sequence with FD.DEC. -/
theorem decodeSequenceEqualsDecodeFrame : Obligations.DecodeSequenceEqualsDecodeFrame := by
  intro raw s
  obtain ⟨r, hr, hvalue, hout, htx, hsame⟩ := decodeSequence_run (dec := .fdDec) rfl (fun _ => HoldsPushed.fdDec) s
  exact ⟨r, hr, hvalue, hout, htx, hsame.registers⟩

/-- Settles O41: it is the sequence with FD.DECX. -/
theorem encryptedDecodeSequenceEqualsItsFunction : Obligations.EncryptedDecodeSequenceEqualsItsFunction := by
  intro raw s
  obtain ⟨r, hr, hvalue, hout, htx, hsame⟩ := decodeSequence_run (dec := .fdDecx) rfl (fun _ => HoldsPushed.fdDecx) s
  exact ⟨r, hr, hvalue, hout, htx, hsame.registers⟩

end Machine
end Sys2Proof
end

section
/-! The checksum sequence (R82, R114): it computes the fold, and touches nothing but `ACC`. -/

namespace Sys2Proof
namespace Machine

/-- A run ends where the run of its operations after the first one ends. -/
theorem final_of_runProgram_cons {i : Instr} {is : List Instr} {s : State} {r : Run}
    (h : runProgram (i :: is) s = .next r) : ∃ q, runProgram is (after i s) = .next q ∧ r.final = q.final := by
  obtain ⟨q, hq⟩ := runProgram_ok is (after i s)
  obtain rfl := Host.Outcome.next.inj ((runProgram_cons hq).symm.trans h)
  exact ⟨q, hq, rfl⟩

/-- Absorbing bytes folds them into `ACC` and changes nothing else (R81). -/
theorem run_absorbs {bytes : List Byte} {s : State} {r : Run} (hr : runProgram (bytes.map .bccAbs) s = .next r) :
    SameState { s with acc := bytes.foldl (· ^^^ ·) s.acc } r.final := by
  induction bytes generalizing s r with
  | nil =>
    obtain rfl := Host.Outcome.next.inj hr
    exact .refl s
  | cons b bytes ih =>
    obtain ⟨q, hq, hfinal⟩ := final_of_runProgram_cons hr
    rw [hfinal]
    exact .trans (t := { after (.bccAbs b) s with acc := (b :: bytes).foldl (· ^^^ ·) s.acc }) rfl (ih hq)

/-- Reading `ACC` answers it and changes nothing but the outputs (R144). -/
theorem SameState.after_rdAcc {s t : State} (h : SameState s t) : ∃ n,
    after (.rd .acc) t = { s with tx := [], dout := BitVec.ofNat 16 s.acc.toNat, draws := n } := by
  have hacc : readStatus Config.params t .acc = BitVec.ofNat 16 s.acc.toNat :=
    (h.field (readStatus Config.params · .acc) fun _ _ _ _ => rfl).trans (setWidth16_eq s.acc)
  refine ⟨t.draws, ?_⟩
  calc after (.rd .acc) t
      = t.answering (BitVec.ofNat 16 s.acc.toNat) := congrArg t.answering hacc
    _ = _ := congrArg (fun u : State => { u with tx := [], dout := BitVec.ofNat 16 s.acc.toNat, draws := t.draws }) h

/-- Settles O19: after the clear the absorbed bytes are all that is in `ACC`, and the read answers it. -/
theorem checksumSequenceComputesTheFold : Obligations.ChecksumSequenceComputesTheFold := by
  intro bytes s
  obtain ⟨q, hq⟩ := runProgram_ok (bytes.map .bccAbs) (after .bccClr s)
  have hfold : SameState { s with acc := bytes.foldl (· ^^^ ·) 0 } q.final :=
    .trans (t := { after .bccClr s with acc := bytes.foldl (· ^^^ ·) 0 }) rfl (run_absorbs hq)
  obtain ⟨n, hrd⟩ := hfold.after_rdAcc
  have hrun := runProgram_cons (runProgram_append hq (runProgram_one (.rd .acc) q.final))
  refine ⟨_, BitVec.ofNat 16 (bytes.foldl (· ^^^ ·) 0).toNat, n, hrun, hrd, ?_, ?_⟩
  · show (_ :: (q.douts ++ [(after (.rd .acc) q.final).dout])).getLast? = _
    rw [← List.cons_append, List.getLast?_concat, hrd]
  · refine runProgram_tx_of_not_emits (fun i hi => ?_) hrun
    simp only [List.mem_cons, List.mem_append, List.mem_map, List.not_mem_nil, or_false] at hi
    rcases hi with rfl | ⟨b, -, rfl⟩ | rfl <;> rfl

end Machine
end Sys2Proof
end

section
/-! The Session Controller (R121 to R129): what its events do, phase by phase, and what a session does with its block. -/

namespace Sys2Proof
namespace Machine

/-! ### Events -/

/-- Nothing leaves the end of a session (R121, R129). -/
theorem sessionRun_exited {x : Session} {why : Ending} (h : x.phase = .exited why) (events : List HostEvent) :
    sessionRun events x = x := by
  have hturn : ∀ e, sessionTurn e x = x := fun e => by simp only [sessionTurn, h]
  induction events with
  | nil => rfl
  | cons e events ih => exact (congrArg (sessionRun events) (hturn e)).trans ih

theorem sessionTurn_start {x : Session} (h : x.phase = .idle) : sessionTurn .start x = sendCommand x := by
  simp only [sessionTurn, h]

theorem sessionTurn_openOk {x : Session} (h : x.phase = .idle) :
    sessionTurn .openOk x = { x with portOpen := true } := by
  simp only [sessionTurn, h]

theorem sessionTurn_openFailed {x : Session} (h : x.phase = .idle) (hport : x.portOpen = false) :
    sessionTurn .openFailed x = { x with phase := .exited .connectError } := by
  simp only [sessionTurn, h, hport, Bool.false_eq_true, if_false]

theorem sessionTurn_writeOk {x : Session} (h : x.phase = .commandSent) :
    sessionTurn .writeOk x = commandWritten x := by
  simp only [sessionTurn, h]

theorem sessionTurn_writeFailed {x : Session} (h : x.phase = .commandSent) :
    sessionTurn .writeFailed x = { x with phase := .exited .writeError } := by
  simp only [sessionTurn, h]

/-- All that a session awaits while receiving (R123, R126 to R129). -/
theorem sessionTurn_receiving {x : Session} (h : x.phase = .receiving) (e : HostEvent) :
    sessionTurn e x = match e with
      | .read bytes => readTurn bytes x
      | .readFailed => readTurn [] x
      | .stop => { x with phase := .exited .stopped }
      | .deadline => deadlineTurn x
      | .openOk | .openFailed | .start | .writeOk | .writeFailed => x := by
  cases e <;> simp only [sessionTurn, h]

theorem Session.perform_of_run {α : Type} {x : Session} {program : HostProgram α} {r : Answer α}
    (h : program.run x.block = .next r) (use : Answer α → Session → Session) :
    x.perform program use = use r { x with block := r.final } := by
  rw [Session.perform, h]

/-! ### The Command -/

/-- The mode-select Command in the document's terms (R97, R98). -/
def commandBytes : Mode → List Byte
  | .adjust lower upper frequency => encodeCommand Config.opcAdjust (adjustArgs lower upper frequency)
  | .stream => encodeCommand Config.opcStream []
  | .encryptedStream => encodeCommand Config.opcXstream []
  | .file => encodeCommand Config.opcFile []

/-- From an idle encoder the mode's operations emit its Command and leave everything but the outputs. -/
theorem runOps_modeCommand (mode : Mode) {s : State} (h : s.estat = .idle) : ∃ d n,
    s.runOps ((modeCommand mode).map after) = { s with tx := commandBytes mode, dout := d, draws := n } := by
  cases mode with
  | adjust lower upper frequency => exact sendAdjust_idle lower upper frequency h
  | stream | encryptedStream | file => exact runOps_encodeProc _ [] h

theorem runProgram_modeCommand (mode : Mode) {s : State} (h : s.estat = .idle) : ∃ r,
    runProgram (modeCommand mode) s = .next r ∧ r.tx = commandBytes mode ∧ SameState s r.final := by
  obtain ⟨r, hr⟩ := runProgram_ok (modeCommand mode) s
  obtain ⟨d, n, hops⟩ := runOps_modeCommand mode h
  have hfinal := (runOps_eq_runProgram hr).symm.trans hops
  exact ⟨r, hr, congrArg State.tx hfinal,
    (congrArg (fun t : State => { t with tx := s.tx, dout := s.dout, draws := s.draws }) hfinal :)⟩

theorem sendCommand_open {x : Session} (hport : x.portOpen = true) (h : x.block.estat = .idle) : ∃ t,
    SameState x.block t ∧ sendCommand x =
      { x with phase := .commandSent, block := t, written := x.written ++ commandBytes x.mode } := by
  obtain ⟨r, hr, htx, hsame⟩ := runProgram_modeCommand x.mode h
  have hrun := HostProgram.run_giveAll hr (rest := .done ()) rfl
  refine ⟨r.final, hsame, ?_⟩
  rw [sendCommand, if_pos hport, Session.perform_of_run hrun, ← htx, List.append_nil]

/-- Settles O57: the Command's operations run on an idle encoder; after a fatal ending no event does anything. -/
theorem sessionStartSendsTheCommand : Obligations.SessionStartSendsTheCommand := by
  refine ⟨fun x hphase hport hestat => ?_, fun x later hphase hport => ?_, fun x later hphase => ?_⟩
  · obtain ⟨t, hsame, hsend⟩ := sendCommand_open hport hestat
    refine ⟨_, (sessionTurn_start hphase).trans hsend, rfl, rfl, rfl, ?_, ?_, ?_⟩
    · exact (hsame.field State.estat fun _ _ _ _ => rfl).trans hestat
    · exact hsame.field State.flt fun _ _ _ _ => rfl
    · show x.written ++ commandBytes x.mode = _
      cases x.mode <;> rfl
  · refine ⟨?_, sessionTurn_openOk hphase⟩
    exact (congrArg (sessionRun later) (sessionTurn_openFailed hphase hport)).trans (sessionRun_exited rfl later)
  · exact (congrArg (sessionRun later) (sessionTurn_writeFailed hphase)).trans (sessionRun_exited rfl later)

/-! ### Streaming -/

/-- A full read adds to the reports what the procedure decodes, and otherwise changes the block alone. -/
theorem streamTurn_full {procedure : List Byte → HostProgram (Except DecodeError ParsedFrame)} {bytes : List Byte}
    {x : Session} {r : Answer (Except DecodeError ParsedFrame)} (hlen : bytes.length = 8)
    (hr : (procedure bytes).run x.block = .next r) : streamTurn procedure bytes x =
      { x with block := r.final, reports := x.reports ++ [decodeReport r.value] } :=
  (if_pos hlen).trans (Session.perform_of_run hr _)

/-- A read of another length is no frame (R124). -/
theorem readTurn_short {bytes : List Byte} {x : Session} (hmode : x.mode = .stream ∨ x.mode = .encryptedStream)
    (hlen : bytes.length ≠ 8) : readTurn bytes x = x := by
  rcases hmode with hmode | hmode <;> simp only [readTurn, hmode] <;> exact if_neg hlen

/-- A full read in a streaming mode is decoded by the mode's function (R123, R125). -/
theorem readTurn_full {bytes : List Byte} {x : Session} (hmode : x.mode = .stream ∨ x.mode = .encryptedStream)
    (hlen : bytes.length = 8) : ∃ t, readTurn bytes x = { x with
      block := t
      reports := x.reports ++ [decodeReport (if x.mode = .stream then decodeFrame Config.params bytes
        else decodeEncryptedFrame Config.params bytes)] } := by
  rcases hmode with hmode | hmode
  · obtain ⟨r, hr, hvalue, -⟩ := decodeSequenceEqualsDecodeFrame bytes x.block
    refine ⟨r.final, ?_⟩
    rw [if_pos hmode, ← hvalue, ← streamTurn_full hlen hr]
    simp only [readTurn, hmode]
  · obtain ⟨r, hr, hvalue, -⟩ := encryptedDecodeSequenceEqualsItsFunction bytes x.block
    refine ⟨r.final, ?_⟩
    rw [if_neg (by simp [hmode]), ← hvalue, ← streamTurn_full hlen hr]
    simp only [readTurn, hmode]

/-- The streaming modes have no deadline (R126). -/
theorem deadlineTurn_streaming {x : Session} (hmode : x.mode = .stream ∨ x.mode = .encryptedStream) :
    deadlineTurn x = x := by
  rcases hmode with hmode | hmode <;> simp only [deadlineTurn, hmode]

/-- Settles O58: the decode procedures return the document's outcome, which is what is yielded. -/
theorem streamingYieldsEveryDecodedFrame : Obligations.StreamingYieldsEveryDecodedFrame := by
  intro x bytes hphase hlen hmode
  obtain ⟨t, hturn⟩ := readTurn_full hmode hlen
  exact ⟨_, (sessionTurn_receiving hphase _).trans hturn, hphase, rfl, rfl, rfl⟩

theorem readTurn_streaming_phase {x : Session} (bytes : List Byte)
    (hmode : x.mode = .stream ∨ x.mode = .encryptedStream) : (readTurn bytes x).phase = x.phase := by
  by_cases hlen : bytes.length = 8
  · obtain ⟨t, hturn⟩ := readTurn_full hmode hlen
    rw [hturn]
  · rw [readTurn_short hmode hlen]

/-- Settles O59: of the events awaited while receiving, reads and the deadline keep the phase. -/
theorem streamingEndsOnlyByTheCaller : Obligations.StreamingEndsOnlyByTheCaller := by
  intro x e hphase hmode
  rw [sessionTurn_receiving hphase]
  refine ⟨fun hstop => ?_, ?_, ?_, ?_⟩
  · cases e with
    | read bytes => exact (readTurn_streaming_phase bytes hmode).trans hphase
    | readFailed => exact (readTurn_streaming_phase [] hmode).trans hphase
    | deadline => exact (congrArg Session.phase (deadlineTurn_streaming hmode)).trans hphase
    | stop => exact absurd rfl hstop
    | openOk | openFailed | start | writeOk | writeFailed => exact hphase
  · rintro bytes rfl hlen
    exact readTurn_short hmode hlen
  · rintro rfl
    exact readTurn_short hmode (by decide)
  · rintro rfl
    rfl

end Machine
end Sys2Proof
end

section
/-! A reception in the document's terms (R120, R130 to R136): what the bytes of one append make of the buffer that stands
in the state. -/

namespace Sys2Proof
namespace Machine

/-! ### The received bytes -/

theorem length_fileResult_data (s : State) : (fileResult s).data.length = s.rlen.toNat := by
  simp only [fileResult, receivedBytes, List.length_map, List.length_range]

theorem rlen_ne_of_room {s : State} (h : (fileResult s).data.length < 65535) : s.rlen ≠ 65535 := by
  rw [length_fileResult_data] at h
  exact fun e => absurd (congrArg BitVec.toNat e) (Nat.ne_of_lt h)

theorem fileResult_append_data {s : State} (b : Byte) (h : s.rlen ≠ 65535) :
    (fileResult (s.append b)).data = (fileResult s).data ++ [b] := by
  have hold : (List.range s.rlen.toNat).map (s.append b).rbufByte = (List.range s.rlen.toNat).map s.rbufByte :=
    List.map_congr_left fun a ha =>
      (State.rbufByte_append s b a).trans (if_neg (Nat.ne_of_lt (List.mem_range.1 ha)))
  have hnew : (s.append b).rbufByte s.rlen.toNat = b := (State.rbufByte_append s b _).trans (if_pos rfl)
  simp only [fileResult, receivedBytes]
  rw [append_length b h, List.range_succ, List.map_append, hold, List.map_singleton, hnew]

/-- The block's sentinel test is the document's, on the received bytes (R130, R133, R134). -/
theorem sentinelSeen_eq_endsInSentinel (s : State) : s.sentinelSeen = endsInSentinel (fileResult s).data := by
  have hlen := length_fileResult_data s
  rw [State.sentinelSeen, endsInSentinel, hlen]
  by_cases h2 : 2 ≤ s.rlen.toNat
  · obtain ⟨k, hk⟩ := Nat.exists_eq_add_of_le' h2
    have hlast : (fileResult s).data.drop k = [s.rbufByte k, s.rbufByte (k + 1)] := by
      simp only [fileResult, receivedBytes, hk, List.range_succ, List.map_append, List.append_assoc]
      exact List.drop_left' (by simp)
    rw [hk, Nat.add_sub_cancel, hlast]
    simp [State.rbufByte]
  · have hshort : (fileResult s).data.drop (s.rlen.toNat - 2) ≠ [Config.sentinelByte, Config.sentinelByte] := by
      intro e
      have hcount : ((fileResult s).data.drop (s.rlen.toNat - 2)).length = 2 := congrArg List.length e
      rw [List.length_drop, hlen] at hcount
      omega
    rw [decide_eq_false h2, beq_false_of_ne hshort, Bool.false_and, Bool.false_and]

/-- Trimming the sentinel ends the reception with the bytes in front of it (R135). -/
theorem fileResult_trimSentinel {s : State} (h : s.sentinelSeen = true) : fileResult s.trimSentinel =
    ⟨(fileResult s).data.take ((fileResult s).data.length - 2), false⟩ := by
  have h2 : 2 ≤ s.rlen.toNat := by
    simp only [State.sentinelSeen, Bool.and_eq_true, decide_eq_true_eq] at h
    exact h.1.1
  have hlen : (s.rlen - 2).toNat = s.rlen.toNat - 2 := BitVec.toNat_sub_of_le (BitVec.le_def.2 h2)
  have hbytes : receivedBytes s (s.rlen.toNat - 2) = (receivedBytes s s.rlen.toNat).take (s.rlen.toNat - 2) := by
    rw [receivedBytes, receivedBytes, ← List.map_take, List.take_range, Nat.min_eq_left (Nat.sub_le _ _)]
  rw [length_fileResult_data]
  show FileTransferResult.mk (receivedBytes s (s.rlen - 2).toNat) false = _
  rw [hlen, hbytes]
  rfl

/-! ### One append -/

/-- The reception runs, and `buffer` is what it received. -/
structure Receiving (buffer : List Byte) (s : State) : Prop where
  running : s.rstat = .recv
  received : (fileResult s).data = buffer

theorem SameState.receiving {s t : State} {buffer : List Byte} (h : SameState s t) (hs : Receiving buffer s) :
    Receiving buffer t where
  running := (h.field State.rstat fun _ _ _ _ => rfl).trans hs.running
  received := (h.field (fun u => (fileResult u).data) fun _ _ _ _ => rfl).trans hs.received

/-- RX.START begins with an empty buffer (R131). -/
theorem Receiving.rxStart (s : State) : Receiving [] (after .rxStart s) := ⟨rfl, rfl⟩

theorem Receiving.append {buffer : List Byte} {s : State} (h : Receiving buffer s) (b : Byte)
    (hroom : buffer.length < 65535) : Receiving (buffer ++ [b]) (s.append b) where
  running := h.running
  received := by
    rw [fileResult_append_data b (rlen_ne_of_room (h.received ▸ hroom)), h.received]

/-- What an append leaves that makes the buffer `buffer`: the reception runs on, or the sentinel has ended it (R130). -/
inductive AppendLeaves (buffer : List Byte) (s : State) : Prop
  | runsOn (hs : endsInSentinel buffer = false) (h : Receiving buffer s)
  | ended (hs : endsInSentinel buffer = true) (h : s.rstat = .done)
      (hresult : fileResult s = ⟨buffer.take (buffer.length - 2), false⟩)

/-- A byte that is not the last of its append is stored, whatever the buffer ends in (R133). -/
theorem Receiving.put {buffer : List Byte} {s : State} (h : Receiving buffer s) (b : Byte)
    (hroom : buffer.length < 65535) : Receiving (buffer ++ [b]) (after (.rxPut b false) s) := by
  have hput : after (.rxPut b false) s = (s.append b).silent :=
    rxPut_stored Config.params b false h.running (rlen_ne_of_room (h.received ▸ hroom)) rfl
  rw [hput]
  exact SameState.receiving (s := s.append b) rfl (h.append b hroom)

/-- The last byte of an append is stored, and the sentinel test is made (R132, R133). -/
theorem Receiving.putLast {buffer : List Byte} {s : State} (h : Receiving buffer s) (b : Byte)
    (hroom : buffer.length < 65535) : AppendLeaves (buffer ++ [b]) (after (.rxPut b true) s) := by
  have hcap := rlen_ne_of_room (h.received ▸ hroom)
  have happ := h.append b hroom
  have hseen : (s.append b).sentinelSeen = endsInSentinel (buffer ++ [b]) := by
    rw [sentinelSeen_eq_endsInSentinel, happ.received]
  cases hs : endsInSentinel (buffer ++ [b]) with
  | false =>
    have hput : after (.rxPut b true) s = (s.append b).silent :=
      rxPut_stored Config.params b true h.running hcap (hseen.trans hs)
    rw [hput]
    exact .runsOn hs (SameState.receiving (s := s.append b) rfl happ)
  | true =>
    have hput : after (.rxPut b true) s = (s.append b).trimSentinel.silent :=
      rxPut_sentinel Config.params b true h.running hcap (hseen.trans hs)
    rw [hput]
    refine .ended hs rfl ?_
    exact (fileResult_trimSentinel (hseen.trans hs)).trans (by rw [happ.received])

/-- The operations of one poll make one append of its bytes (R120). -/
theorem Receiving.run_append {buffer c : List Byte} {s : State} {r : Run} (h : Receiving buffer s) (hc : c ≠ [])
    (hfit : (buffer ++ c).length ≤ 65535) (hr : runProgram (appendProc c) s = .next r) :
    AppendLeaves (buffer ++ c) r.final := by
  induction c generalizing buffer s r with
  | nil => exact absurd rfl hc
  | cons b c ih =>
    have hroom : buffer.length < 65535 := by
      rw [List.length_append, List.length_cons] at hfit
      omega
    cases c with
    | nil =>
      obtain rfl := Host.Outcome.next.inj ((runProgram_one (.rxPut b true) s).symm.trans hr)
      exact h.putLast b hroom
    | cons b' c =>
      obtain ⟨q, hq, hfinal⟩ := final_of_runProgram_cons hr
      rw [hfinal, List.append_cons]
      exact ih (h.put b hroom) (List.cons_ne_nil _ _) (List.append_cons .. ▸ hfit) hq

/-- The deadline ends a running reception with what it received (R138, R161). -/
theorem Receiving.rxTmo {buffer : List Byte} {s : State} (h : Receiving buffer s) :
    (after .rxTmo s).rstat = .timeout ∧ fileResult (after .rxTmo s) = ⟨buffer, true⟩ := by
  have htmo : after .rxTmo s = { s with rstat := .timeout }.silent := rxTmo_recv h.running
  rw [htmo, ← h.received]
  exact ⟨rfl, rfl⟩

end Machine
end Sys2Proof
end

section
/-! The file session, mode 4 (R127, R128): its polls are appends of one reception, and the end of the reception is the
end of the session. -/

namespace Sys2Proof
namespace Machine

/-! ### A turn of the receiver -/

/-- A session in mode 4 that has yielded `earlier` and whose reception has received `buffer`. -/
structure ReceivingFile (earlier : List Report) (buffer : List Byte) (x : Session) : Prop where
  phase : x.phase = .receiving
  mode : x.mode = .file
  reports : x.reports = earlier
  reception : Receiving buffer x.block

/-- A session that is over, and has yielded the file `result` last. -/
structure FileYielded (earlier : List Report) (result : FileTransferResult) (x : Session) : Prop where
  phase : x.phase = .exited .fileReceived
  reports : x.reports = earlier ++ [.received result]

/-- While the reception runs, a turn changes the block alone. -/
theorem receiverTurn_running {ops : List Instr} {x : Session} {q : Run} (hq : runProgram ops x.block = .next q)
    (h : q.final.rstat = .recv) : receiverTurn ops x = { x with block := q.final.answering 1 } := by
  have hhead : checkReceived.run q.final = .next ⟨q.final.answering 1, [], none⟩ := whileReceiving_recv h rfl
  rw [receiverTurn, Session.perform_of_run (HostProgram.run_giveAll hq hhead)]

/-- A reception that is over is yielded and ends the session (R127, R128). -/
theorem receiverTurn_over {ops : List Instr} {x : Session} {q : Run} (hq : runProgram ops x.block = .next q)
    (h : q.final.rstat ≠ .recv) : FileYielded x.reports (fileResult q.final) (receiverTurn ops x) := by
  obtain ⟨t, -, hread⟩ := whileReceiving_over h
  have hhead : checkReceived.run q.final = .next ⟨t, [], some (fileResult q.final)⟩ := hread _ rfl
  rw [receiverTurn, Session.perform_of_run (HostProgram.run_giveAll hq hhead)]
  exact ⟨rfl, rfl⟩

theorem receivingFile_receiverTurn {ops : List Instr} {buffer : List Byte} {x : Session} {q : Run}
    (hphase : x.phase = .receiving) (hmode : x.mode = .file) (hq : runProgram ops x.block = .next q)
    (h : Receiving buffer q.final) : ReceivingFile x.reports buffer (receiverTurn ops x) := by
  rw [receiverTurn_running hq h.running]
  exact ⟨hphase, hmode, rfl, SameState.receiving (s := q.final) rfl h⟩

/-! ### Events -/

theorem FileYielded.sessionRun {earlier : List Report} {result : FileTransferResult} {x : Session}
    (h : FileYielded earlier result x) (events : List HostEvent) :
    FileYielded earlier result (sessionRun events x) := by
  rwa [sessionRun_exited h.phase]

/-- The write of the Command starts the reception (R127). -/
theorem receivingFile_writeOk {x : Session} (hphase : x.phase = .commandSent) (hmode : x.mode = .file) :
    ReceivingFile x.reports [] (sessionTurn .writeOk x) := by
  have hturn : sessionTurn .writeOk x = receiverTurn [.rxStart] { x with phase := .receiving } := by
    simp only [sessionTurn_writeOk hphase, commandWritten, hmode]
  rw [hturn]
  exact receivingFile_receiverTurn (x := { x with phase := .receiving }) rfl hmode (runProgram_one ..) (.rxStart _)

section
variable {earlier : List Report} {buffer : List Byte} {x : Session}

theorem ReceivingFile.read_eq (h : ReceivingFile earlier buffer x) (bytes : List Byte) :
    sessionTurn (.read bytes) x = receiverTurn (appendProc bytes) x := by
  simp only [sessionTurn_receiving h.phase, readTurn, h.mode]

/-- An empty poll is a no-op (R136). -/
theorem ReceivingFile.read_nil (h : ReceivingFile earlier buffer x) :
    ReceivingFile earlier buffer (sessionTurn (.read []) x) := by
  rw [h.read_eq, ← h.reports]
  exact receivingFile_receiverTurn h.phase h.mode rfl h.reception

/-- A poll that does not complete the sentinel is received, and the session goes on (R130). -/
theorem ReceivingFile.read_runsOn (h : ReceivingFile earlier buffer x) {c : List Byte} (hc : c ≠ [])
    (hfit : (buffer ++ c).length ≤ 65535) (hs : endsInSentinel (buffer ++ c) = false) :
    ReceivingFile earlier (buffer ++ c) (sessionTurn (.read c) x) := by
  obtain ⟨q, hq⟩ := runProgram_ok (appendProc c) x.block
  rw [h.read_eq, ← h.reports]
  cases h.reception.run_append hc hfit hq with
  | runsOn _ hr => exact receivingFile_receiverTurn h.phase h.mode hq hr
  | ended hs' => exact nomatch hs.symm.trans hs'

/-- A poll that completes the sentinel ends the session with the bytes in front of it (R127, R130). -/
theorem ReceivingFile.read_ended (h : ReceivingFile earlier buffer x) {c : List Byte} (hc : c ≠ [])
    (hfit : (buffer ++ c).length ≤ 65535) (hs : endsInSentinel (buffer ++ c) = true) :
    FileYielded earlier ⟨(buffer ++ c).take ((buffer ++ c).length - 2), false⟩ (sessionTurn (.read c) x) := by
  obtain ⟨q, hq⟩ := runProgram_ok (appendProc c) x.block
  rw [h.read_eq, ← h.reports]
  cases h.reception.run_append hc hfit hq with
  | runsOn hs' => exact nomatch hs.symm.trans hs'
  | ended _ hdone hresult => exact hresult ▸ receiverTurn_over hq (hdone ▸ by decide)

/-- The deadline ends the session with the bytes received so far (R127, R138). -/
theorem ReceivingFile.deadline (h : ReceivingFile earlier buffer x) :
    FileYielded earlier ⟨buffer, true⟩ (sessionTurn .deadline x) := by
  obtain ⟨hrstat, hresult⟩ := h.reception.rxTmo
  have hturn : sessionTurn .deadline x = receiverTurn [.rxTmo] x := by
    simp only [sessionTurn_receiving h.phase, deadlineTurn, h.mode]
  rw [hturn, ← hresult, ← h.reports]
  exact receiverTurn_over (runProgram_one ..) (hrstat ▸ by decide)

/-- The polls and the deadline after them do what `receive_file` does from the buffer on (R130). -/
theorem ReceivingFile.run_polls (h : ReceivingFile earlier buffer x) {polls : List (List Byte)}
    (hfit : (buffer ++ polls.flatten).length ≤ 65535) : FileYielded earlier (receiveFileFrom buffer polls)
      (sessionRun (polls.map .read ++ [.deadline]) x) := by
  induction polls generalizing buffer x with
  | nil => exact h.deadline
  | cons c polls ih =>
    rw [List.flatten_cons, ← List.append_assoc] at hfit
    cases c with
    | nil => exact ih h.read_nil (List.append_nil buffer ▸ hfit)
    | cons b bs =>
      have hc : b :: bs ≠ [] := List.cons_ne_nil b bs
      have hfit' : (buffer ++ b :: bs).length ≤ 65535 := by
        rw [List.length_append] at hfit
        omega
      cases hs : endsInSentinel (buffer ++ b :: bs) with
      | true =>
        rw [receiveFileFrom, if_pos hs]
        exact (h.read_ended hc hfit' hs).sessionRun _
      | false =>
        rw [receiveFileFrom, if_neg (hs ▸ Bool.false_ne_true)]
        exact ih (h.read_runsOn hc hfit' hs) hfit

end

/-- Settles O60: the written Command starts a reception with an empty buffer, which the polls and the deadline end. -/
theorem fileSessionYieldsTheReceivedFile : Obligations.FileSessionYieldsTheReceivedFile := by
  intro x polls hphase hmode hfit
  obtain ⟨hover, hreports⟩ := (receivingFile_writeOk hphase hmode).run_polls (polls := polls) hfit
  exact ⟨_, rfl, hover, hreports⟩

end Machine
end Sys2Proof
end

section
/-! The file receiver: RX.START, RX.PUT, RX.TMO and RX.RDB (R131, R132, R138, R139), and what leaves `TIMEOUT` (R141). -/

namespace Sys2Proof
namespace Machine

/-! ### RX.START -/

/-- Settles O44: the word empties the buffer and runs the reception, and any operand bit makes it illegal. -/
theorem rxStartBeginsAnEmptyReception : Obligations.RxStartBeginsAnEmptyReception := fun s =>
  ⟨exec_of_after (i := .rxStart) ⟨_, _, rfl⟩, decode_encode (i := .rxStart) rfl,
    fun opd hopd => stepOn_error ((decodeWord_append 0x50 opd).trans (formN_error .rxStart hopd)) s⟩

/-! ### RX.PUT -/

/-- The two words of `RX.PUT b`, which differ in the bit `last` (R57, R62). -/
theorem append_eq_opWord_opdBL (b : Byte) :
    (0x5100 : Half) ++ b = opWord 0x51 (opdBL b false) ∧ (0x5101 : Half) ++ b = opWord 0x51 (opdBL b true) := by
  revert b
  decide

/-- A length below the capacity leaves room, and is below the largest length there is. -/
theorem rlen_ne_of_lt_bufCap {s : State} {p : Config.Params} (h : s.rlen < p.bufCap) :
    s.rlen ≠ p.bufCap ∧ s.rlen ≠ 65535 :=
  ⟨BitVec.ne_of_lt h, by bv_omega⟩

/-- When the test of an append finds the sentinel, in terms of the state before it (R132 to R134). -/
theorem last_and_sentinelSeen_append {s : State} (b : Byte) (last : Bool) (h : s.rlen ≠ 65535) :
    (last && (s.append b).sentinelSeen) = true ↔
      last = true ∧ 1 ≤ s.rlen.toNat ∧ s.rbufByte (s.rlen.toNat - 1) = 0xFF ∧ b = 0xFF := by
  rw [Bool.and_eq_true_iff, sentinelSeen_append b h]

/-- The buffer after an append, byte by byte: the byte stands at `RLEN` and every other one stays (R43). -/
theorem rbufByte_with_append_rbuf (s : State) (b : Byte) (a : Nat) :
    ({ s with rbuf := (s.append b).rbuf } : State).rbufByte a = if a = s.rlen.toNat then b else s.rbufByte a :=
  (State.rbufByte_congr rfl a).trans (State.rbufByte_append s b a)

/-- One byte appended and the two of the sentinel trimmed make the length one less. -/
theorem rlen_append_trim (n : Half) : n + 1 - 2 = n - 1 := by
  bv_omega

/-- Settles O46: a full buffer is looked at before the byte is stored and before the sentinel test. -/
theorem fullBufferDropsTheByte : Obligations.FullBufferDropsTheByte :=
  fun p b last _ hr hf => ⟨_, _, rxPut_full p b last hr hf⟩

/-- Settles O45: the reception is looked at first, then the room, and the byte is stored before the sentinel test. -/
theorem rxPutAppendsAndTestsTheSentinel : Obligations.RxPutAppendsAndTestsTheSentinel := by
  refine fun b last s => ⟨exec_eq_next (.rxPut b last) s, fun p => ⟨fun hr hroom hs => ?_, fun hr hroom hs => ?_,
    fun hr => ⟨_, _, rxPut_outside p b last hr⟩, fullBufferDropsTheByte p b last s⟩, ?_, ?_, fun opd hopd => ?_⟩
  · obtain ⟨hcap, hmax⟩ := rlen_ne_of_lt_bufCap hroom
    have htest := eq_false_of_ne_true (mt (last_and_sentinelSeen_append b last hmax).1 hs)
    exact ⟨_, _, _, rxPut_stored p b last hr hcap htest, rbufByte_with_append_rbuf s b⟩
  · obtain ⟨hcap, hmax⟩ := rlen_ne_of_lt_bufCap hroom
    have hput := rxPut_sentinel p b last hr hcap ((last_and_sentinelSeen_append b last hmax).2 hs)
    rw [← rlen_append_trim]
    exact ⟨_, _, _, hput, rbufByte_with_append_rbuf s b⟩
  · exact (congrArg decodeWord (append_eq_opWord_opdBL b).1).trans (decode_encode (i := .rxPut b false) rfl)
  · exact (congrArg decodeWord (append_eq_opWord_opdBL b).2).trans (decode_encode (i := .rxPut b true) rfl)
  · exact stepOn_error ((decodeWord_append 0x51 opd).trans (formBL_error .rxPut hopd)) s

/-! ### RX.TMO -/

/-- Settles O47: a running reception is looked for, and only the status is written. -/
theorem rxTmoEndsARunningReception : Obligations.RxTmoEndsARunningReception := by
  refine fun s => ⟨fun h => ?_, fun h => ?_, decode_encode (i := .rxTmo) rfl, fun opd hopd => ?_⟩
  · exact exec_of_after (i := .rxTmo) ⟨_, _, rxTmo_recv h⟩
  · exact exec_of_after (i := .rxTmo) ⟨_, _, rxTmo_outside h⟩
  · exact stepOn_error ((decodeWord_append 0x52 opd).trans (formN_error .rxTmo hopd)) s

/-- No message stands for `RX.START`. -/
theorem ne_rxStart_of_mem_expand {i j : Instr} (hi : i ≠ .rxStart) (hj : j ∈ expand i) : j ≠ .rxStart :=
  beq_eq_false_iff_ne.1
    (class_of_mem_expand (C := (· == .rxStart)) (by cases i <;> rfl) (beq_eq_false_iff_ne.2 hi) hj)

/-- The effects that write `RSTAT` or `RLEN` are those of `RX.START`, of `RST` and of a running reception (R34). -/
theorem OperationEffect.keeps_timeout {s t : State} {i : Instr} (he : OperationEffect s i t)
    (hr : s.rstat = .timeout) (hstart : i ≠ .rxStart) (hrst : i ≠ .rst) : t.rstat = .timeout ∧ t.rlen = s.rlen := by
  cases he with
  | reset => exact absurd rfl hrst
  | startReception => exact absurd rfl hstart
  | store _ _ hrecv | endReception _ _ hrecv | timeOut hrecv => exact nomatch hr.symm.trans hrecv
  | _ => exact ⟨hr, rfl⟩

/-- Settles O52: each operation that the instruction stands for keeps `TIMEOUT` and the length. -/
theorem timeoutIsLeftOnlyByStartOrReset : Obligations.TimeoutIsLeftOnlyByStartOrReset := by
  refine fun i s hr hstart hrst => ⟨_, exec_eq_next i s, ?_⟩
  refine after_keeps_of_effects (P := fun t => t.rstat = .timeout ∧ t.rlen = s.rlen) (fun _ _ ht => ht) ?_ ⟨hr, rfl⟩
  rintro j hj t u he ⟨ht, hlen⟩
  obtain ⟨hu, hlen'⟩ := he.keeps_timeout ht (ne_rxStart_of_mem_expand hstart hj) (ne_rst_of_mem_expand hrst hj)
  exact ⟨hu, hlen'.trans hlen⟩

/-! ### RX.RDB -/

/-- Settles O48: every operand is an address, and the invariant leaves none below `RLEN` before the first reception. -/
theorem rxRdbAnswersAReceivedByte : Obligations.RxRdbAnswersAReceivedByte := by
  refine fun a s => ⟨fun h => ⟨s.draws, ?_⟩, fun h => ?_, fun hinv hidle => ?_, decode_encode (i := .rxRdb a) rfl⟩
  · calc exec (.rxRdb a) s
        = .next (s.answering (zext16 (s.rbufByte a.toNat))) :=
          (exec_eq_next (.rxRdb a) s).trans (congrArg _ (rxRdb_received h))
      _ = _ := by rw [zext16_eq]; rfl
  · exact exec_of_after (i := .rxRdb a) ⟨_, _, rxRdb_beyond h⟩
  · rw [hinv.idleEmpty hidle]
    exact Nat.zero_le a.toNat

end Machine
end Sys2Proof
end

section
/-! The receive sequence (R120, R130, R140, R142): however the stream is cut into polls, the procedure returns what the
document's `receive_file` does, and touches nothing outside the receiver. -/

namespace Sys2Proof
namespace Machine

/-! ### What the receiver's operations leave -/

/-- `s` with the receive buffer, `RLEN`, `RSTAT` and the outputs of `q`. -/
def State.withReceiverOf (s q : State) : State :=
  { s with rbuf := q.rbuf, rlen := q.rlen, rstat := q.rstat, tx := q.tx, dout := q.dout, draws := q.draws }

/-- The two states differ at most in the receiver's registers and the outputs. -/
def SameOutsideReceiver (s t : State) : Prop := t.withReceiverOf s = s

theorem SameOutsideReceiver.trans {s t u : State} (h : SameOutsideReceiver s t) (k : SameOutsideReceiver t u) :
    SameOutsideReceiver s u :=
  (congrArg (State.withReceiverOf · s) k).trans h

theorem SameState.sameOutsideReceiver {s t : State} (h : SameState s t) : SameOutsideReceiver s t :=
  (congrArg (State.withReceiverOf · s) h :)

/-- The faults and the registers of the other units are among what is the same. -/
theorem SameOutsideReceiver.registers {s t : State} (h : SameOutsideReceiver s t) :
    t.flt = s.flt ∧ t.acc = s.acc ∧ t.fb = s.fb ∧ t.flen = s.flen ∧ t.dstat = s.dstat ∧ t.estat = s.estat := by
  rw [← h]
  exact ⟨rfl, rfl, rfl, rfl, rfl, rfl⟩

/-- A byte for which a running reception has room raises no fault (R132). -/
theorem Receiving.put_sameOutside {buffer : List Byte} {s : State} (h : Receiving buffer s) (b : Byte) (last : Bool)
    (hroom : buffer.length < 65535) : SameOutsideReceiver s (after (.rxPut b last) s) := by
  have hcap := rlen_ne_of_room (h.received ▸ hroom)
  cases htest : last && (s.append b).sentinelSeen with
  | false =>
    have hput : after (.rxPut b last) s = (s.append b).silent :=
      rxPut_stored Config.params b last h.running hcap htest
    rw [hput]
    rfl
  | true =>
    have hput : after (.rxPut b last) s = (s.append b).trimSentinel.silent :=
      rxPut_sentinel Config.params b last h.running hcap htest
    rw [hput]
    rfl

/-- One append for which a running reception has room raises no fault. -/
theorem Receiving.run_append_sameOutside {buffer c : List Byte} {s : State} {r : Run} (h : Receiving buffer s)
    (hfit : (buffer ++ c).length ≤ 65535) (hr : runProgram (appendProc c) s = .next r) :
    SameOutsideReceiver s r.final := by
  induction c generalizing buffer s r with
  | nil =>
    obtain rfl := Host.Outcome.next.inj hr
    rfl
  | cons b c ih =>
    have hroom : buffer.length < 65535 := by
      rw [List.length_append, List.length_cons] at hfit
      omega
    cases c with
    | nil =>
      obtain rfl := Host.Outcome.next.inj ((runProgram_one (.rxPut b true) s).symm.trans hr)
      exact h.put_sameOutside b true hroom
    | cons b' c =>
      obtain ⟨q, hq, hfinal⟩ := final_of_runProgram_cons hr
      rw [hfinal]
      exact (h.put_sameOutside b false hroom).trans (ih (h.put b hroom) (List.append_cons .. ▸ hfit) hq)

/-- The operations of a poll emit nothing (R60). -/
theorem appendProc_not_emits (c : List Byte) : ∀ i ∈ appendProc c, emits i = false := by
  induction c with
  | nil => exact fun _ hi => nomatch hi
  | cons b c ih =>
    cases c with
    | nil => exact List.forall_mem_singleton.2 rfl
    | cons b' c => exact List.forall_mem_cons.2 ⟨rfl, ih⟩

/-! ### The sequence -/

/-- The answer to the sequence is `result`, which stands in the state at the end (R140), and the run from `s` emitted
nothing and left all but the receiver. -/
structure FileAnswered (s : State) (result : FileTransferResult) (r : Answer FileTransferResult) : Prop where
  value : r.value = result
  stands : fileResult r.final = result
  tx : r.tx = []
  same : SameOutsideReceiver s r.final

/-- Operations in front of a run that emit nothing and leave all but the receiver. -/
theorem FileAnswered.after_run {s t : State} {result : FileTransferResult} {r : Answer FileTransferResult}
    {bytes : List Byte} (h : FileAnswered t result r) (htx : bytes = []) (hsame : SameOutsideReceiver s t) :
    FileAnswered s result ⟨r.final, bytes ++ r.tx, r.value⟩ where
  value := h.value
  stands := h.stands
  tx := by rw [htx, h.tx, List.append_nil]
  same := hsame.trans h.same

/-- The head of the loop, once the reception is over: its result is read and returned (R120). -/
theorem whileReceiving_answers {s : State} (body : HostProgram FileTransferResult) (h : s.rstat ≠ .recv) :
    ∃ r, (whileReceiving body .done).run s = .next r ∧ FileAnswered s (fileResult s) r := by
  obtain ⟨t, hsame, hread⟩ := whileReceiving_over h
  exact ⟨_, hread _ rfl, rfl, hsame.field fileResult fun _ _ _ _ => rfl, rfl, hsame.sameOutsideReceiver⟩

/-- Once the reception is over, the turns that were left are not made. -/
theorem receiveTurns_over {s : State} (polls : List (List Byte)) (h : s.rstat ≠ .recv) :
    ∃ r, (receiveTurns polls).run s = .next r ∧ FileAnswered s (fileResult s) r := by
  cases polls with
  | nil => exact whileReceiving_answers _ h
  | cons c polls => exact whileReceiving_answers _ h

/-- The deadline finds the reception running, and ends it with what it received (R138, R161). -/
theorem Receiving.receiveTurns_nil_run {buffer : List Byte} {s : State} (h : Receiving buffer s) :
    ∃ r, (receiveTurns []).run s = .next r ∧ FileAnswered s ⟨buffer, true⟩ r := by
  have hread : Receiving buffer (s.answering 1) := SameState.receiving (s := s) rfl h
  obtain ⟨hrstat, hresult⟩ := hread.rxTmo
  have hover : (after .rxTmo (s.answering 1)).rstat ≠ .recv := hrstat ▸ by decide
  obtain ⟨r, hr, hans⟩ := whileReceiving_answers (readReceived .done) hover
  have htmo : after .rxTmo (s.answering 1) = { s.answering 1 with rstat := .timeout }.silent :=
    rxTmo_recv hread.running
  refine ⟨_, whileReceiving_recv h.running (HostProgram.run_give hr), ?_⟩
  exact (hresult ▸ hans).after_run (by rw [htmo]; rfl) (by rw [htmo]; rfl)

/-- The turns and the deadline after them do what `receive_file` does from the buffer on (R130). -/
theorem Receiving.receiveTurns_run {buffer : List Byte} {s : State} {polls : List (List Byte)} (h : Receiving buffer s)
    (hfit : (buffer ++ polls.flatten).length ≤ 65535) :
    ∃ r, (receiveTurns polls).run s = .next r ∧ FileAnswered s (receiveFileFrom buffer polls) r := by
  induction polls generalizing buffer s with
  | nil => exact h.receiveTurns_nil_run
  | cons c polls ih =>
    rw [List.flatten_cons, ← List.append_assoc] at hfit
    have hfit' : (buffer ++ c).length ≤ 65535 := by
      rw [List.length_append] at hfit
      omega
    have hread : Receiving buffer (s.answering 1) := SameState.receiving (s := s) rfl h
    obtain ⟨q, hq⟩ := runProgram_ok (appendProc c) (s.answering 1)
    have hsame : SameOutsideReceiver s q.final :=
      .trans (t := s.answering 1) rfl (hread.run_append_sameOutside hfit' hq)
    have htx := runProgram_tx_of_not_emits (appendProc_not_emits c) hq
    suffices hrest : ∃ r, (receiveTurns polls).run q.final = .next r ∧
        FileAnswered q.final (receiveFileFrom buffer (c :: polls)) r by
      obtain ⟨r, hr, hans⟩ := hrest
      exact ⟨_, whileReceiving_recv h.running (HostProgram.run_giveAll hq hr), hans.after_run htx hsame⟩
    cases c with
    | nil =>
      obtain rfl := Host.Outcome.next.inj hq
      exact ih hread (List.append_nil buffer ▸ hfit)
    | cons b bs =>
      rw [receiveFileFrom]
      cases hread.run_append (List.cons_ne_nil b bs) hfit' hq with
      | runsOn hs hrecv =>
        rw [if_neg (hs ▸ Bool.false_ne_true)]
        exact ih hrecv hfit
      | ended hs hdone hresult =>
        rw [if_pos hs, ← hresult]
        exact receiveTurns_over polls (hdone ▸ by decide)

/-- Settles O51: RX.START begins with an empty buffer, from which the turns do what `receive_file` does. -/
theorem receiveSequenceEqualsReceiveFile : Obligations.ReceiveSequenceEqualsReceiveFile := by
  intro polls s hfit
  obtain ⟨r, hr, hans⟩ := (Receiving.rxStart s).receiveTurns_run (polls := polls) hfit
  obtain ⟨hvalue, hstands, htx, hsame⟩ := hans.after_run (s := s) (bytes := (after .rxStart s).tx) rfl rfl
  exact ⟨_, HostProgram.run_give hr, hvalue, hstands, htx, hsame.registers⟩

end Machine
end Sys2Proof
end

section
/-! The system operations NOP (R143) and RST (R145, with the values of R39). -/

namespace Sys2Proof
namespace Machine

/-- Settles O14: NOP touches the outputs alone, and any bit set in an operand of form `N` makes its word illegal. -/
theorem nopChangesNothing : Obligations.NopChangesNothing := fun s =>
  ⟨exec_of_after (i := .nop) ⟨_, _, rfl⟩, decode_encode (i := .nop) rfl,
    fun opd hopd => stepOn_error ((decodeWord_append 0x00 opd).trans (formN_error .nop hopd)) s⟩

/-- RST goes to the reset state, the host's words still presented and the next draw taken (log 4). -/
theorem exec_rst (s : State) : exec .rst s = .next (State.atReset s.draws s.presented) :=
  exec_eq_next .rst s

/-- Settles O16: the fields of the reset state are the values of R39, and any operand bit makes the word illegal. -/
theorem rstRestoresTheResetState : Obligations.RstRestoresTheResetState := by
  refine fun s => ⟨⟨_, exec_rst s, ?_⟩, decode_encode (i := .rst) rfl, fun opd hopd => ?_⟩
  · exact ⟨State.atReset_acc .., State.atReset_flen .., State.atReset_dstat .., State.atReset_estat ..,
      State.atReset_rstat .., State.atReset_rlen .., State.atReset_flt .., State.atReset_tx ..,
      State.atReset_presented ..⟩
  · exact stepOn_error ((decodeWord_append 0x0F opd).trans (formN_error .rst hopd)) s

end Machine
end Sys2Proof
end

section
/-! Faults (R150, R152): an operation that records one does nothing else, and which operations record none. -/

namespace Sys2Proof
namespace Machine

/-! ### What a fault leaves -/

/-- The fault effect is the only one, a reset apart, that writes `FLT`. -/
theorem OperationEffect.eq_raiseFault {s t : State} {i : Instr} (he : OperationEffect s i t) (hi : i ≠ .rst)
    (hflt : t.flt ≠ s.flt) : ∃ f, t = s.raiseFault f := by
  cases he with
  | fault _ f => exact ⟨f, rfl⟩
  | reset => exact absurd rfl hi
  | _ => exact absurd rfl hflt

/-- Settles O54: an operation that changes `FLT` has raised a fault, which writes `FLT` and the outputs alone. -/
theorem faultingOperationDoesNothingElse : Obligations.FaultingOperationDoesNothingElse := by
  intro i s t h hi ht hflt
  obtain rfl := Host.Outcome.next.inj ((exec_eq_next i s).symm.trans ht)
  obtain ⟨f, hf⟩ := (operation_effect h s).eq_raiseFault hi hflt
  rw [hf]
  exact ⟨_, _, rfl⟩

/-! ### The operations that never fail -/

/-- The operations of R150, `RST` apart. -/
def raisesNoFault : Instr → Bool
  | .bccClr => true
  | .bccAbs _ => true
  | .xcByte _ => true
  | .fdClr => true
  | .fdPush _ => true
  | .fdDec => true
  | .fdDecx => true
  | .rxStart => true
  | .rxTmo => true
  | .nop => true
  | .rd _ => true
  | _ => false

theorem decoderOperation_flt {i : Instr} (h : isDecoderOperation i = true) (s : State) :
    (after i s).flt = s.flt := by
  obtain ⟨-, hflt, -⟩ := (decoderOperation_sameOutside h s).registers
  exact hflt

theorem rxTmo_flt (s : State) : (rxTmo s).flt = s.flt := by
  by_cases h : s.rstat = .recv
  · rw [rxTmo_recv h, State.silent_flt]
  · rw [rxTmo_outside h, State.silent_flt]

theorem after_flt_of_raisesNoFault {i : Instr} (h : raisesNoFault i = true) (s : State) :
    (after i s).flt = s.flt := by
  cases i with
  | fdClr | fdPush | fdDec | fdDecx => exact decoderOperation_flt rfl s
  | rxTmo => exact rxTmo_flt s
  | bccClr | bccAbs | xcByte | rxStart | nop | rd => rfl
  | _ => exact nomatch h

/-- Settles O56: the operations listed raise no fault, and a reset clears every one. -/
theorem operationsThatNeverFail : Obligations.OperationsThatNeverFail := by
  intro s i hi
  have hno : raisesNoFault i = true := by
    rcases hi with hl | ⟨b, rfl⟩ | ⟨b, rfl⟩ | ⟨b, rfl⟩ | ⟨r, rfl⟩
    · exact List.all_eq_true.1 (by decide) i hl
    all_goals rfl
  exact ⟨⟨_, exec_eq_next i s, after_flt_of_raisesNoFault hno s⟩, _, exec_rst s, State.atReset_flt ..⟩

end Machine
end Sys2Proof
end

section
/-! The results of the last decode (R34, R172): `DSTAT` and the eight result registers are the decoder's, so whatever
is given between a decode and the reads of its results leaves them alone. -/

namespace Sys2Proof
namespace Machine

/-- `t` has the `DSTAT` and the eight result registers of `s`. -/
def SameResults (s t : State) : Prop := t.dstat = s.dstat ∧ t = t.withResultsOf s

theorem SameResults.refl (s : State) : SameResults s s := ⟨rfl, rfl⟩

theorem SameResults.trans {s t u : State} (h : SameResults s t) (k : SameResults t u) : SameResults s u := by
  obtain ⟨hdstat, hresults⟩ := h
  obtain ⟨kdstat, kresults⟩ := k
  refine ⟨kdstat.trans hdstat, ?_⟩
  calc u
      = u.withResultsOf t := kresults
    _ = u.withResultsOf (t.withResultsOf s) := congrArg u.withResultsOf hresults
    _ = u.withResultsOf s := rfl

/-- Collecting the bytes of a message's operations leaves the results alone. -/
theorem SameResults.with_tx {s t : State} (h : SameResults s t) (bytes : List Byte) :
    SameResults s { t with tx := bytes } :=
  h.trans ⟨rfl, rfl⟩

theorem writesResults_of_mem_expand {i j : Instr} (hi : writesResults i = false) (hj : j ∈ expand i) :
    writesResults j = false :=
  class_of_mem_expand (by cases i <;> rfl) hi hj

/-- Of all effects only a decode's and a reset's write the results (R34). -/
theorem OperationEffect.sameResults {s t : State} {i : Instr} (he : OperationEffect s i t)
    (hi : writesResults i = false) : SameResults s t := by
  cases he with
  | reset => exact nomatch hi
  | decodeError hw | decodeReading hw => exact nomatch hi.symm.trans hw
  | _ => exact ⟨rfl, rfl⟩

theorem after_sameResults {i : Instr} (hi : writesResults i = false) (s : State) : SameResults s (after i s) :=
  after_keeps_of_effects (P := SameResults s) (fun _ bytes ht => ht.with_tx bytes)
    (fun _ hj _ _ he ht => ht.trans (he.sameResults (writesResults_of_mem_expand hi hj))) (.refl s)

/-- Settles O43: each operation that the instruction stands for is neither a decode nor a reset, and keeps the
results. -/
theorem resultsChangeOnlyByDecodeOrReset : Obligations.ResultsChangeOnlyByDecodeOrReset :=
  fun i s hi => ⟨_, exec_eq_next i s, after_sameResults hi s⟩

end Machine
end Sys2Proof
end
